-- ==== Sys2Proof/Word.lean ====
section
/-! DEFINITION. The widths of the data the core moves (00_scope.md R4, R5; 44_low_bits_helper.md R112). -/

namespace Sys2Proof

/-- A value to encode or a decoded value: a 64-bit pattern, read as unsigned or as two's complement (R5). -/
abbrev Value := BitVec 64

/-- One byte of the wire format (R55). -/
abbrev Byte := BitVec 8

/-- The 7 payload bits of a byte (R55). -/
abbrev Payload := BitVec 7

/-- A command word: `OP` in bits 65:64, `VAL_IN` in bits 63:0 (R50). -/
abbrev CommandWord := BitVec 66

end Sys2Proof
end

