-- ==== Sys2Proof/Config.lean ====
section
/-! DEFINITION. The fixed parameters of 00_scope.md R4. The open ones, `SRC_BYTES` and `SNK_CAP`, are
arguments of the model: they stand in the state's source and sink. -/

namespace Sys2Proof.Config

/-- Width in bits of a value (R4). -/
abbrev W : Nat := 64

/-- Payload bits per encoded byte (R4). -/
abbrev G : Nat := 7

/-- Continuation flag mask, bit 7 (R4, R67). -/
abbrev CONT : Byte := 0x80

/-- Sign bit mask, bit 6 (R4, R67). -/
abbrev SIGN : Byte := 0x40

/-- Greatest length in bytes of an encoded sequence (R4). -/
abbrev MAXLEN : Nat := 10

/-- The shift of the 10th byte (R4). -/
abbrev LASTSHIFT : Nat := 63

/-- Width of `CNT` and `COUNT` (R4; decision D9). -/
abbrev COUNT_BITS : Nat := 4

/-- What a decoder does with the source after an overflow (R4). -/
inductive OvfDrain where
  /-- No further byte is read: the only value the spec specifies (decision D7; U5). -/
  | stop
  deriving DecidableEq, Repr

/-- What a 10th byte with a legal payload and its continuation flag set does (U4). -/
inductive TenthCont where
  /-- It is an overflow: the only value the spec specifies (decision D6). -/
  | overflow
  deriving DecidableEq, Repr

/-- `OVF_DRAIN` of R4. -/
abbrev OVF_DRAIN : OvfDrain := .stop

/-- `TENTH_CONT` of 93_implementation_defined.md U4. -/
abbrev TENTH_CONT : TenthCont := .overflow

end Sys2Proof.Config
end

