-- ==== Sys2Proof/Syntax.lean ====
section
/-! DEFINITION. The four operations, one constructor per row of spec/opcode_table.json (30_encoding.md R51). -/

namespace Sys2Proof

/-- The instruction set of the core (R1, R51). The decoders carry no operand: `VAL_IN` is ignored and R53
lets a model leave it out. -/
inductive Instr where
  /-- `ENCU`, the unsigned encoder of `VAL_IN` read as u64 (R70). -/
  | encu (valIn : Value)
  /-- `DECU`, the unsigned decoder (R80). -/
  | decu
  /-- `ENCS`, the signed encoder of `VAL_IN` read as i64 (R90). -/
  | encs (valIn : Value)
  /-- `DECS`, the signed decoder (R100). -/
  | decs
  deriving DecidableEq, Repr

/-- The mnemonic (R51, R65). -/
def Instr.mnemonic : Instr → String
  | .encu _ => "ENCU"
  | .decu => "DECU"
  | .encs _ => "ENCS"
  | .decs => "DECS"

end Sys2Proof
end

