-- ==== Sys2Proof/WellFormed.lean ====
section
/-! DEFINITION. Which terms are commands. Every `Instr` is one (30_encoding.md R52: there is nothing to
refuse); the range checks are those of the written form of a command (R65), which also has the two
pseudo-operations of R66. -/

namespace Sys2Proof

/-- Every operation with every 64-bit operand is a valid command (R52). -/
def Instr.wellFormed : Instr → Bool
  | .encu _ => true
  | .decu => true
  | .encs _ => true
  | .decs => true

/-- A command as R65 writes it: a mnemonic and, for the encoders, a number. -/
inductive Asm where
  | encu (value : Int)
  | decu
  | encs (value : Int)
  | decs
  /-- Pseudo-operation `DECU.V` (R66). -/
  | decuV
  /-- Pseudo-operation `DECS.V` (R66). -/
  | decsV
  deriving DecidableEq, Repr

/-- The ranges of `<value>`: 0 to 2^64-1 for `ENCU`, -2^63 to 2^63-1 for `ENCS` (R65). -/
def Asm.wellFormed : Asm → Bool
  | .encu v => decide (0 ≤ v) && decide (v < 2 ^ 64)
  | .decu => true
  | .encs v => decide (-2 ^ 63 ≤ v) && decide (v < 2 ^ 63)
  | .decs => true
  | .decuV => true
  | .decsV => true

/-- The operation a written command stands for, its number placed in `VAL_IN` as its 64-bit pattern (R65);
the pseudo-operations expand to the full decoders (R66). `none` for a number out of range. -/
def Asm.assemble (a : Asm) : Option Instr :=
  if a.wellFormed then
    some (match a with
      | .encu v => .encu (BitVec.ofInt 64 v)
      | .decu => .decu
      | .encs v => .encs (BitVec.ofInt 64 v)
      | .decs => .decs
      | .decuV => .decu
      | .decsV => .decs)
  else none

/-- Whether the requester that wrote this command ignores `COUNT` (R66). -/
def Asm.countIgnored : Asm → Bool
  | .encu _ => false
  | .decu => false
  | .encs _ => false
  | .decs => false
  | .decuV => true
  | .decsV => true

end Sys2Proof
end

