-- ==== Sys2Proof/Decode.lean ====
section
/-! DEFINITION. The command word (30_encoding.md R50 to R53) and the opcode table: decoder, encoder, rows; and the text of a
written command (R65). -/

namespace Sys2Proof

/-- Field `OP`, bits 65:64 of the command (R50). -/
def opField (w : CommandWord) : BitVec 2 := w.extractLsb' 64 2

/-- Field `VAL_IN`, bits 63:0 of the command (R50). -/
def valInField (w : CommandWord) : Value := w.extractLsb' 0 64

/-- The `OP` map: bit 1 is the signedness, bit 0 the direction (R51). Total: all four values are assigned (R52).
`VAL_IN` of a decode command is ignored (R53). -/
def decode (w : CommandWord) : Instr :=
  match (opField w).getLsbD 1, (opField w).getLsbD 0 with
  | false, false => .encu (valInField w)
  | false, true => .decu
  | true, false => .encs (valInField w)
  | true, true => .decs

/-- Why a number is no command. -/
inductive DecodeError where
  /-- It does not fit in 66 bits: the command has one format and one length (R50). -/
  | notACommandWord
  deriving DecidableEq, Repr

/-- Reading a number as a command: rejected by name where it is no 66-bit word (R50), and never otherwise (R52). -/
def decodeCommand (w : Nat) : Except DecodeError Instr :=
  if w < 2 ^ 66 then .ok (decode (BitVec.ofNat 66 w)) else .error .notACommandWord

/-- The `OP` value of an operation (R51). -/
def Instr.op : Instr → BitVec 2
  | .encu _ => 0b00#2
  | .decu => 0b01#2
  | .encs _ => 0b10#2
  | .decs => 0b11#2

/-- The `VAL_IN` field of an operation's command; zero for the decoders, which ignore it (R53). -/
def Instr.valIn : Instr → Value
  | .encu v => v
  | .decu => 0
  | .encs v => v
  | .decs => 0

/-- The command word of an operation: `OP` above `VAL_IN` (R50). -/
def encode (i : Instr) : CommandWord := i.op ++ i.valIn

/-- The operation that `OPSEL` selects while it runs (R13). Its operand is not kept: a running encoder works on
`REM`, so the operand given here is read by nothing. -/
def selected (op : BitVec 2) : Instr := decode (op ++ (0#64))

/-- One row of spec/opcode_table.json. -/
structure OpcodeRow where
  mnemonic : String
  mask : CommandWord
  pattern : CommandWord
  deriving DecidableEq, Repr

/-- A word belongs to a row where it agrees with the row's match under its mask. -/
def OpcodeRow.accepts (r : OpcodeRow) (w : CommandWord) : Bool := w &&& r.mask == r.pattern

/-- spec/opcode_table.json, in the table's order. -/
def opcodeTable : List OpcodeRow :=
  [ { mnemonic := "ENCU", mask := 0x30000000000000000, pattern := 0x00000000000000000 },
    { mnemonic := "DECU", mask := 0x30000000000000000, pattern := 0x10000000000000000 },
    { mnemonic := "ENCS", mask := 0x30000000000000000, pattern := 0x20000000000000000 },
    { mnemonic := "DECS", mask := 0x30000000000000000, pattern := 0x30000000000000000 } ]

/-- What the decoder reads from a table word of `nbits` bits, the bits above `nbits` being 0. -/
def decodeTableWord (nbits w : Nat) : Option Instr :=
  (decodeCommand (w % 2 ^ nbits)).toOption

/-- The text of a written command (R65). -/
def Asm.text : Asm → String
  | .encu v => "ENCU " ++ toString v
  | .decu => "DECU"
  | .encs v => "ENCS " ++ toString v
  | .decs => "DECS"
  | .decuV => "DECU.V"
  | .decsV => "DECS.V"

/-- The value of a digit in a base of at most 16. -/
def digitValue (base : Nat) (c : Char) : Option Nat :=
  let n := c.toNat
  let d := if 48 ≤ n ∧ n ≤ 57 then n - 48 else if 97 ≤ n ∧ n ≤ 102 then n - 87 else if 65 ≤ n ∧ n ≤ 70 then n - 55 else 16
  if d < base then some d else none

/-- Digits after those that already gave `acc`. -/
def readDigits (base acc : Nat) : List Char → Option Nat
  | [] => some acc
  | c :: cs =>
      match digitValue base c with
      | none => none
      | some d => readDigits base (acc * base + d) cs

/-- A number as R65 writes it: decimal, or hexadecimal after `0x`. -/
def readMagnitude : List Char → Option Nat
  | [] => none
  | '0' :: 'x' :: c :: cs => readDigits 16 0 (c :: cs)
  | c :: cs => readDigits 10 0 (c :: cs)

/-- A number as R65 writes it, with its sign. -/
def readNumber : List Char → Option Int
  | '-' :: cs => (readMagnitude cs).map fun n => -(n : Int)
  | cs => (readMagnitude cs).map fun n => (n : Int)

/-- A written command read from its text (R65, R66): a mnemonic and, for the encoders, one number. The range of the number
is checked by `Asm.wellFormed`. -/
def Asm.read (text : List Char) : Option Asm :=
  match text with
  | 'E' :: 'N' :: 'C' :: 'U' :: ' ' :: v => (readNumber v).map .encu
  | 'E' :: 'N' :: 'C' :: 'S' :: ' ' :: v => (readNumber v).map .encs
  | ['D', 'E', 'C', 'U'] => some .decu
  | ['D', 'E', 'C', 'S'] => some .decs
  | ['D', 'E', 'C', 'U', '.', 'V'] => some .decuV
  | ['D', 'E', 'C', 'S', '.', 'V'] => some .decsV
  | _ => none

end Sys2Proof
end

