-- ==== Sys2Proof/Machine/State.lean ====
section
/-! DEFINITION. The state of the core and of the environment agents it talks to, as plain data
(10_state.md R10 to R25; 20_memory.md R30 to R33), and the reasons a step can stop. -/

namespace Sys2Proof.Machine

/-- `PHASE` (R12). -/
inductive Phase where
  /-- `IDLE`: no beat is performed and a command is accepted. -/
  | idle
  /-- `RUN`: beats of the operation in `OPSEL` are performed and no command is accepted. -/
  | run
  deriving DecidableEq, Repr

/-- The content of a register. `noValue` is the spec's own state of a register: what reset puts there (R22) and what
an operation writes to `VAL_OUT` where it delivers nothing (R17). It is never read as 0 or as a fixed pattern (R23). -/
inductive Reg (w : Nat) where
  | noValue
  | holds (v : BitVec w)
  deriving DecidableEq, Repr

/-- The registers that can hold no value, by the spec's names (R22). -/
inductive RegName where
  | opsel | rem | acc | shift | cnt | status | valOut | count
  deriving DecidableEq, Repr

/-- The response registers, which the requester reads (R17). -/
inductive ResponseReg where
  | status | valOut | count
  deriving DecidableEq, Repr

/-- The outcomes an operation can report (60_exceptions.md R120). -/
inductive Status where
  | ok | endOfInput | overflow | writeError
  deriving DecidableEq, Repr

/-- A source's answer to `MemRead(SRC, 1)` (R31): a byte, or `END`. -/
inductive SrcAnswer where
  | byte (b : Byte)
  | endOfInput
  deriving DecidableEq, Repr

/-- A sink's answer to `MemWrite(SNK, 1, b)` (R32). -/
inductive SnkAnswer where
  | ack | nak
  deriving DecidableEq, Repr

/-- How a channel is connected to this core (R143, R146; U7). -/
inductive Link where
  /-- Connected, and no other operation in progress anywhere uses it: what R143 asks for. -/
  | exclusive
  /-- Connected, and in use by another operation in progress: what R42 forbids. -/
  | shared
  /-- Not connected. -/
  | absent
  deriving DecidableEq, Repr

/-- How the byte source answers (R33). -/
inductive SrcBehaviour where
  /-- The reference source over `SRC_BYTES` with its position. -/
  | reference (srcBytes : List Byte) (pos : Nat)
  /-- Any other source, as the answers it will give, first one first (U9, U11); where none is left, the request is
  not answered (U10). -/
  | script (answers : List SrcAnswer)
  deriving DecidableEq, Repr

/-- The byte source: environment state (R21). -/
structure Source where
  link : Link
  behaviour : SrcBehaviour
  deriving DecidableEq, Repr

/-- How the byte sink answers (R33). -/
inductive SnkBehaviour where
  /-- The reference sink with `SNK_CAP`; `none` is the unbounded one. -/
  | reference (snkCap : Option Nat)
  /-- Any other sink, as the answers it will give, first one first (U9); where none is left, the offer is not
  answered (U10). -/
  | script (answers : List SnkAnswer)
  deriving DecidableEq, Repr

/-- The byte sink: environment state (R21). `data` is what it has accepted so far, first byte first. -/
structure Sink where
  link : Link
  behaviour : SnkBehaviour
  data : List Byte
  deriving DecidableEq, Repr

/-- One move of the outside world: of the requester or of the platform. -/
inductive Input where
  /-- The requester lets one step pass (R152). -/
  | wait
  /-- The requester waits until `PHASE = IDLE` (R12). -/
  | awaitIdle
  /-- The requester offers a command word at this step (R50). -/
  | command (w : CommandWord)
  /-- The requester reads a response register at this step (R17). -/
  | read (r : ResponseReg)
  /-- The core is reset at this step (R140, R141). -/
  | reset
  /-- The platform connects a source (R37, R143). -/
  | attachSource (src : Source)
  /-- The platform connects a sink (R37, R143). -/
  | attachSink (snk : Sink)
  /-- The platform presents the sink's contents as the reference source, from its first byte (R41). -/
  | presentSink
  deriving DecidableEq, Repr

/-- The whole state: the core's registers (R12 to R19), the environment's channels (R21), and the moves the outside
world will make, next one first (the model's own field: the command port, the reset and the platform). -/
structure State where
  phase : Phase
  opsel : Reg 2
  rem : Reg 64
  acc : Reg 64
  shift : Reg 7
  cnt : Reg 4
  status : Reg 2
  valOut : Reg 64
  count : Reg 4
  source : Source
  sink : Sink
  inputs : List Input
  deriving DecidableEq, Repr

/-- The reasons a step stops with a fault: all are faults of the MODEL, ill-formed uses the spec forbids; the
hardware itself has no trap. Safe: no claim can rest on what comes after one. -/
inductive Fault where
  /-- A register that holds no value was read: a fault of the model by R6, R23 and U1 to U3. Raised by a requester's read
  of a response register that holds no value, and by a beat at the point where its rule reads a register that holds none,
  which no run reaches. Safe. -/
  | noValue (r : RegName)
  /-- A response register was read while `PHASE = RUN` (U15). Raised by a requester's read. Safe. -/
  | staleResponse (r : ResponseReg)
  /-- A left shift by 64 or more, for which R6 defines no primitive. Raised by a decoder's beat that would shift a payload
  by a `SHIFT` above 63, which no run reaches. Safe. -/
  | shiftUndefined
  deriving DecidableEq, Repr

/-- The reasons a step is refused: configurations the spec puts outside itself. Safe: no claim can rest on what comes
after one. -/
inductive Refusal where
  /-- An instruction without a meaning yet. Raised by `exec` alone. Safe. -/
  | notModelled (mnemonic : String)
  /-- The operation's channel is in use by another operation in progress: a model refuses it (R42, R146, U7). Raised
  when a command is accepted and at every beat. Safe. -/
  | channelShared
  /-- The operation's channel is not connected, against the requester's duty (R143). Raised when a command is accepted
  and at every beat. Safe. -/
  | channelAbsent
  deriving DecidableEq, Repr

/-- The machine right after reset (R22, R140): `PHASE` is `IDLE` and every other register holds no value. Reset does not
touch the environment, so its first contents are the model's DESIGN CHOICE (log 4): a source with no bytes, an empty
unbounded sink, both this core's alone, and nobody at the port. -/
def State.reset : State where
  phase := .idle
  opsel := .noValue
  rem := .noValue
  acc := .noValue
  shift := .noValue
  cnt := .noValue
  status := .noValue
  valOut := .noValue
  count := .noValue
  source := { link := .exclusive, behaviour := .reference [] 0 }
  sink := { link := .exclusive, behaviour := .reference none, data := [] }
  inputs := []

end Sys2Proof.Machine
end

