-- ==== Sys2Proof/Machine/Operands.lean ====
section
/-! DEFINITION. The 64-bit primitives of 00_scope.md R6 and the low-bits helper of 44_low_bits_helper.md. -/

namespace Sys2Proof.Machine

/-- `low7` of a byte (R110): bits 6:0. -/
def low7 (b : Byte) : Payload := b.extractLsb' 0 7

/-- `low7` of a 64-bit value (R111): bits 6:0, whichever way the value is read. -/
def low7Value (v : Value) : Payload := v.extractLsb' 0 7

/-- `lsl64(v, k)`: the low 64 bits of `u64(v) * 2^k`; used for 0 <= k <= 63 only (R6). -/
def lsl64 (v : Value) (k : Nat) : Value := v <<< k

/-- `lsr64(v, k)`: logical right shift (R6). -/
def lsr64 (v : Value) (k : Nat) : Value := v >>> k

/-- `asr64(v, k)`: arithmetic right shift (R6; R113, R147). -/
def asr64 (v : Value) (k : Nat) : Value := v.sshiftRight k

/-- `ONES64` (R6). -/
def ones64 : Value := 0xFFFFFFFFFFFFFFFF

/-- One byte of the wire format: the continuation flag above the payload (R55). -/
def wireByte (cont : Bool) (p : Payload) : Byte := BitVec.ofBool cont ++ p

/-- `lsl64(zext_64(p), SHIFT)`: a payload where it enters `ACC` (R80, R114). -/
def payloadAt (p : Payload) (shift : Nat) : Value := lsl64 (p.zeroExtend 64) shift

/-- The mask of sign extension, bits 63 down to `T` set (R100, R114). -/
def signMask (T : Nat) : Value := lsl64 ones64 T

/-- The `STATUS` code of an outcome (R120). -/
def Status.code : Status → BitVec 2
  | .ok => 0
  | .endOfInput => 1
  | .overflow => 2
  | .writeError => 3

/-- The outcome a `STATUS` code stands for (R120). -/
def Status.ofCode (c : BitVec 2) : Status :=
  if c = 0 then .ok else if c = 1 then .endOfInput else if c = 2 then .overflow else .writeError

end Sys2Proof.Machine
end

