-- ==== Sys2Proof/Machine/Flags.lean ====
section
/-! DEFINITION. The four conditions of 10_state.md R20. The core has no flags register: each is computed inside a beat,
used there and not stored. -/

namespace Sys2Proof.Machine

/-- `more` of `ENCU`: the value left after the shift is not zero (R20, R70). -/
def moreFlag (rem : Value) : Bool := lsr64 rem 7 != 0

/-- `done` of `ENCS`: the value shifted right arithmetically by 6 is 0 or -1 (R20, R90). -/
def doneFlag (rem : Value) : Bool := asr64 rem 6 == 0 || asr64 rem 6 == ones64

/-- `cont`: bit 7 of the byte just read (R20, R55). -/
def contFlag (b : Byte) : Bool := b.getLsbD 7

/-- `sign`: bit 6 of the terminating byte (R20, R57). -/
def signFlag (b : Byte) : Bool := b.getLsbD 6

end Sys2Proof.Machine
end

