-- ==== Sys2Proof/Machine/Channels.lean ====
section
/-! DEFINITION. The byte channels: the source, the sink, and the two access primitives `MemRead(SRC, 1)` and
`MemWrite(SNK, 1, b)` (20_memory.md R31 to R33, R42, R47). -/

namespace Sys2Proof.Machine

/-- Why an operation may not use a channel so connected; `none` where it may (R143, U7). -/
def Link.obstacle : Link → Option Refusal
  | .exclusive => none
  | .shared => some .channelShared
  | .absent => some .channelAbsent

/-- The bytes of an answer script, in order. -/
def scriptBytes : List SrcAnswer → List Byte
  | [] => []
  | .byte b :: as => b :: scriptBytes as
  | .endOfInput :: as => scriptBytes as

/-- The bytes not yet read (R21). -/
def Source.unread (src : Source) : List Byte :=
  match src.behaviour with
  | .reference srcBytes pos => srcBytes.drop pos
  | .script answers => scriptBytes answers

/-- The source's answer to one request and the source after it; `none` where the request is not answered (U10). A byte
is removed as it is yielded and `END` removes none (R31); the reference source is that of R33. -/
def Source.answer (src : Source) : Option (SrcAnswer × Source) :=
  match src.behaviour with
  | .reference srcBytes pos =>
      match srcBytes[pos]? with
      | some b => some (.byte b, { src with behaviour := .reference srcBytes (pos + 1) })
      | none => some (.endOfInput, src)
  | .script [] => none
  | .script (a :: as) => some (a, { src with behaviour := .script as })

/-- The sink's answer to the offer of `b` and the sink after it; `none` where the offer is not answered (U10). On `ACK`
the byte is appended, on `NAK` the contents stay (R32); the reference sink is that of R33. -/
def Sink.answer (snk : Sink) (b : Byte) : Option (SnkAnswer × Sink) :=
  match snk.behaviour with
  | .reference none => some (.ack, { snk with data := snk.data ++ [b] })
  | .reference (some cap) =>
      if snk.data.length < cap then some (.ack, { snk with data := snk.data ++ [b] })
      else some (.nak, snk)
  | .script [] => none
  | .script (.ack :: as) => some (.ack, { snk with behaviour := .script as, data := snk.data ++ [b] })
  | .script (.nak :: as) => some (.nak, { snk with behaviour := .script as })

/-- What comes of one access: refused by the model (U7, R143), not answered yet (R47), or answered. -/
inductive Access (α : Type) where
  | refused (r : Refusal)
  | waiting
  | answered (a : α) (s : State)
  deriving DecidableEq, Repr

/-- `MemRead(SRC, 1)` (R31). -/
def memRead (s : State) : Access SrcAnswer :=
  match s.source.link.obstacle with
  | some r => .refused r
  | none =>
      match s.source.answer with
      | none => .waiting
      | some (a, src) => .answered a { s with source := src }

/-- `MemWrite(SNK, 1, b)` (R32). -/
def memWrite (b : Byte) (s : State) : Access SnkAnswer :=
  match s.sink.link.obstacle with
  | some r => .refused r
  | none =>
      match s.sink.answer b with
      | none => .waiting
      | some (a, snk) => .answered a { s with sink := snk }

/-- The reference source's position never passes its bytes (R33). -/
def Source.wf (src : Source) : Bool :=
  match src.behaviour with
  | .reference srcBytes pos => decide (pos ≤ srcBytes.length)
  | .script _ => true

/-- The reference sink never holds more than its capacity (R33). -/
def Sink.wf (snk : Sink) : Bool :=
  match snk.behaviour with
  | .reference (some cap) => decide (snk.data.length ≤ cap)
  | .reference none => true
  | .script _ => true

/-- The source will answer its next requests with exactly these bytes, in this order (R31). -/
def Source.yields (src : Source) (bs : List Byte) : Bool :=
  match src.behaviour with
  | .reference srcBytes pos => bs.isPrefixOf (srcBytes.drop pos)
  | .script answers => (bs.map SrcAnswer.byte).isPrefixOf answers

/-- The source after it has yielded `n` bytes. -/
def Source.advanced (src : Source) (n : Nat) : Source :=
  match src.behaviour with
  | .reference srcBytes pos => { src with behaviour := .reference srcBytes (pos + n) }
  | .script answers => { src with behaviour := .script (answers.drop n) }

/-- The source will yield exactly these bytes and then answer `END` (R31). -/
def Source.endsAfter (src : Source) (bs : List Byte) : Bool :=
  match src.behaviour with
  | .reference srcBytes pos => srcBytes.drop pos == bs
  | .script answers => (bs.map SrcAnswer.byte ++ [SrcAnswer.endOfInput]).isPrefixOf answers

/-- The sink will answer its next `n` offers with `ACK` (R32). -/
def Sink.accepts (snk : Sink) (n : Nat) : Bool :=
  match snk.behaviour with
  | .reference none => true
  | .reference (some cap) => decide (snk.data.length + n ≤ cap)
  | .script answers => (List.replicate n SnkAnswer.ack).isPrefixOf answers

/-- The sink after it has accepted these bytes. -/
def Sink.accepted (snk : Sink) (bs : List Byte) : Sink :=
  match snk.behaviour with
  | .reference _ => { snk with data := snk.data ++ bs }
  | .script answers => { snk with behaviour := .script (answers.drop bs.length), data := snk.data ++ bs }

/-- The sink will accept exactly `n` bytes and refuse the offer after them (R32). -/
def Sink.refusesAfter (snk : Sink) (n : Nat) : Bool :=
  match snk.behaviour with
  | .reference none => false
  | .reference (some cap) => snk.data.length + n == cap
  | .script answers => (List.replicate n SnkAnswer.ack ++ [SnkAnswer.nak]).isPrefixOf answers

/-- The source answers at least its next `n` requests: the reference source always does (R33), a scripted one while its
answers last (R47). -/
def Source.answersNext (src : Source) (n : Nat) : Bool :=
  match src.behaviour with
  | .reference _ _ => true
  | .script answers => decide (n ≤ answers.length)

/-- The sink answers at least its next `n` offers (R33, R47). -/
def Sink.answersNext (snk : Sink) (n : Nat) : Bool :=
  match snk.behaviour with
  | .reference _ => true
  | .script answers => decide (n ≤ answers.length)

end Sys2Proof.Machine
end

