-- ==== Sys2Proof/Machine/Ops.lean ====
section
/-! DEFINITION. The operations the four instructions share: reading a register, ending an operation (with success or
with an error), accepting a command, one beat of an encoder, one beat of a decoder, and reset. -/

namespace Sys2Proof.Machine

/-- What a step answers. -/
abbrev StepResult := Host.Outcome State Fault Refusal

/-- Reading a register (R6): a read of one that holds no value is a fault of the model (R23). -/
def readReg {w : Nat} (name : RegName) (r : Reg w) (use : BitVec w → StepResult) : StepResult :=
  match r with
  | .noValue => .fault (.noValue name)
  | .holds v => use v

/-- `complete(value, count)` (R6): the response registers, all three together (R17), and `PHASE <- IDLE`. -/
def State.complete (s : State) (value : Reg 64) (count : BitVec 4) : State :=
  { s with phase := .idle, status := .holds Status.ok.code, valOut := value, count := .holds count }

/-- Raising an error (R125): `STATUS <- code`, `COUNT <- CNT`, `VAL_OUT <- no value`, `PHASE <- IDLE`, and nothing else:
nothing is saved and control goes nowhere. There is no return operation and nothing to restore (R128). -/
def State.raise (s : State) (e : Status) (cnt : BitVec 4) : State :=
  { s with phase := .idle, status := .holds e.code, valOut := .noValue, count := .holds cnt }

/-- The issue step of an encoder (R70, R90). -/
def State.issueEncoder (s : State) (valIn : Value) : State :=
  { s with rem := .holds valIn, cnt := .holds 0 }

/-- The issue step of a decoder (R80, R100). -/
def State.issueDecoder (s : State) : State :=
  { s with acc := .holds 0, shift := .holds 0, cnt := .holds 0 }

/-- `OPSEL <- OP`, `PHASE <- RUN` (R50). -/
def State.launch (s : State) (op : BitVec 2) : State :=
  { s with phase := .run, opsel := .holds op }

/-- Accepting a command in `IDLE` on a channel the operation may use (R50, R143): the issue step and the launch. -/
def accept (link : Link) (op : BitVec 2) (issued : State) : StepResult :=
  match link.obstacle with
  | some r => .refused r
  | none => .next (issued.launch op)

/-- A move of the core on behalf of one operation: in `IDLE` it accepts the operation's command; in `RUN` it performs a
beat of it where `OPSEL` selects it (R13), and where `OPSEL` selects another operation the command is not accepted:
it has no effect and is not queued (R152). -/
def operate (op : BitVec 2) (issue : State → StepResult) (beat : State → StepResult) (s : State) : StepResult :=
  match s.phase with
  | .idle => issue s
  | .run => readReg .opsel s.opsel fun running => if running = op then beat s else .next s

/-- The registers after an encoder's byte was accepted: `CNT <- CNT + 1` and the new `REM` (R70, R90). -/
def State.byteWritten (s : State) (cnt : BitVec 4) (rem : Value) : State :=
  { s with cnt := .holds (cnt + 1), rem := .holds rem }

/-- One beat of an encoder (R70, R90): offer one byte; on `NAK` end with `WRITE_ERROR`; on `ACK` count it, put the
remaining value in `REM`, and complete after the last byte. `byteOf`, `isLast` and `restOf` say, of the value in `REM`,
which byte is offered, whether it is the last one, and what `REM` becomes. Each register is read where the rule reads it:
`REM` for the byte, `CNT` once the offer is answered. -/
def encoderBeat (byteOf : Value → Byte) (isLast : Value → Bool) (restOf : Value → Value) (s : State) : StepResult :=
  readReg .rem s.rem fun rem =>
  match memWrite (byteOf rem) s with
  | .refused r => .refused r
  | .waiting => .next s
  | .answered .nak s' => readReg .cnt s.cnt fun cnt => .next (s'.raise .writeError cnt)
  | .answered .ack s' =>
      readReg .cnt s.cnt fun cnt =>
      if isLast rem then .next ((s'.byteWritten cnt (restOf rem)).complete .noValue (cnt + 1))
      else .next (s'.byteWritten cnt (restOf rem))

/-- `CNT <- CNT + 1` for a byte read (R80, R100). -/
def State.byteRead (s : State) (cnt : BitVec 4) : State :=
  { s with cnt := .holds (cnt + 1) }

/-- The test of the byte read at `SHIFT = 63`: rejected for a payload that is not legal there (R61, R62), and for a set
continuation flag whatever the payload (R63, parameter `TENTH_CONT`). -/
def tailRejected (legalTail : Payload → Bool) (b : Byte) : Bool :=
  !legalTail (low7 b) ||
    match Config.TENTH_CONT with
    | .overflow => contFlag b

/-- What an overflow leaves: the error, with no further byte read (R80, R100, parameter `OVF_DRAIN`). -/
def State.overflow (s : State) (cnt : BitVec 4) : State :=
  match Config.OVF_DRAIN with
  | .stop => s.raise .overflow cnt

/-- The registers after a decoder's byte that goes on: the new `ACC` and `SHIFT <- SHIFT + 7` (R80, R100). -/
def State.payloadTaken (s : State) (acc : Value) (shift : BitVec 7) : State :=
  { s with acc := .holds acc, shift := .holds (shift + 7) }

/-- The registers after a decoder's last byte: the new `ACC`; `SHIFT` stays (R16, R80, R100). -/
def State.lastPayloadTaken (s : State) (acc : Value) : State :=
  { s with acc := .holds acc }

/-- A decoder's beat once its byte has passed the test of the 10th byte (R80, R100): OR the payload into `ACC` at `SHIFT`;
go on while the continuation flag is set, otherwise finish and complete. `finish` says what the last byte makes of the
accumulator, given the total shift consumed `T = SHIFT + 7`. -/
def takePayload (finish : Value → Nat → Byte → Value) (b : Byte) (acc : Value) (shift : BitVec 7) (cnt : BitVec 4)
    (s : State) : StepResult :=
  if Config.LASTSHIFT < shift.toNat then .fault .shiftUndefined
  else if contFlag b then
    .next ((s.byteRead cnt).payloadTaken (acc ||| payloadAt (low7 b) shift.toNat) shift)
  else
    .next (((s.byteRead cnt).lastPayloadTaken
      (finish (acc ||| payloadAt (low7 b) shift.toNat) (shift.toNat + Config.G) b)).complete
      (.holds (finish (acc ||| payloadAt (low7 b) shift.toNat) (shift.toNat + Config.G) b)) (cnt + 1))

/-- One beat of a decoder (R80, R100): ask for one byte; on `END` end with `END_OF_INPUT`; count the byte; at
`SHIFT = 63` test it and end with `OVERFLOW` before `ACC` is read or changed; then take its payload. `legalTail` says
which payloads are legal in the 10th byte. Each register is read where the rule reads it: `CNT` once the request is
answered, `SHIFT` once there is a byte, `ACC` once the byte has passed the test. -/
def decoderBeat (legalTail : Payload → Bool) (finish : Value → Nat → Byte → Value) (s : State) : StepResult :=
  match memRead s with
  | .refused r => .refused r
  | .waiting => .next s
  | .answered .endOfInput s' => readReg .cnt s.cnt fun cnt => .next (s'.raise .endOfInput cnt)
  | .answered (.byte b) s' =>
      readReg .cnt s.cnt fun cnt =>
      readReg .shift s.shift fun shift =>
      if shift.toNat = Config.LASTSHIFT ∧ tailRejected legalTail b then
        .next ((s'.byteRead cnt).overflow (cnt + 1))
      else readReg .acc s.acc fun acc => takePayload finish b acc shift cnt s'

/-- Reset (R22, R140, R141): `PHASE <- IDLE`, every other register no value, the environment untouched; an operation in
progress is abandoned without a response. -/
def State.coreReset (s : State) : State :=
  { s with
    phase := .idle, opsel := .noValue, rem := .noValue, acc := .noValue, shift := .noValue, cnt := .noValue,
    status := .noValue, valOut := .noValue, count := .noValue }

end Sys2Proof.Machine
end

