-- ==== Sys2Proof/Machine/SignedDecoder.lean ====
section
/-! DEFINITION. `DECS`, the LEB128 signed decoder (43_signed_decoder.md R100). -/

namespace Sys2Proof.Machine

/-- The payloads legal in the 10th byte for `DECS` (R62). -/
def decsTail (p : Payload) : Bool := p == 0x00 || p == 0x7f

/-- The sign-extension step of the last byte: where `T < 64` and its sign bit is set, bits 63 down to `T` are set
(R57, R100). -/
def decsFinish (acc : Value) (T : Nat) (b : Byte) : Value :=
  if T < Config.W ∧ signFlag b then acc ||| signMask T else acc

/-- One beat of `DECS` (R100). -/
def decsBeat (s : State) : StepResult := decoderBeat decsTail decsFinish s

/-- `DECS` (R100). -/
def execDecs (s : State) : StepResult :=
  operate 0b11#2 (fun s => accept s.source.link 0b11#2 s.issueDecoder) decsBeat s

end Sys2Proof.Machine
end

