-- ==== Sys2Proof/Machine/SignedEncoder.lean ====
section
/-! DEFINITION. `ENCS`, the LEB128 signed encoder (42_signed_encoder.md R90). -/

namespace Sys2Proof.Machine

/-- The byte a beat of `ENCS` offers: the flag is set where `done` is not, above `low7(REM)` (R90). -/
def encsByte (rem : Value) : Byte := wireByte (!doneFlag rem) (low7Value rem)

/-- `REM` after a byte of `ENCS` was accepted: `asr64(asr64(REM, 6), 1)`; not written after the last byte (R90). -/
def encsRest (rem : Value) : Value := if doneFlag rem then rem else asr64 (asr64 rem 6) 1

/-- One beat of `ENCS` (R90). -/
def encsBeat (s : State) : StepResult := encoderBeat encsByte doneFlag encsRest s

/-- `ENCS` (R90). -/
def execEncs (valIn : Value) (s : State) : StepResult :=
  operate 0b10#2 (fun s => accept s.sink.link 0b10#2 (s.issueEncoder valIn)) encsBeat s

end Sys2Proof.Machine
end

