-- ==== Sys2Proof/Machine/UnsignedDecoder.lean ====
section
/-! DEFINITION. `DECU`, the LEB128 unsigned decoder (41_unsigned_decoder.md R80). -/

namespace Sys2Proof.Machine

/-- The payloads legal in the 10th byte for `DECU` (R61). -/
def decuTail (p : Payload) : Bool := p == 0x00 || p == 0x01

/-- `DECU` never sign-extends (R84): the last byte leaves the accumulator as it is. -/
def decuFinish (acc : Value) (_T : Nat) (_b : Byte) : Value := acc

/-- One beat of `DECU` (R80). -/
def decuBeat (s : State) : StepResult := decoderBeat decuTail decuFinish s

/-- `DECU` (R80). -/
def execDecu (s : State) : StepResult :=
  operate 0b01#2 (fun s => accept s.source.link 0b01#2 s.issueDecoder) decuBeat s

end Sys2Proof.Machine
end

