-- ==== Sys2Proof/Machine/UnsignedEncoder.lean ====
section
/-! DEFINITION. `ENCU`, the LEB128 unsigned encoder (40_unsigned_encoder.md R70). -/

namespace Sys2Proof.Machine

/-- The byte a beat of `ENCU` offers: `{more, low7(REM)}` (R70). -/
def encuByte (rem : Value) : Byte := wireByte (moreFlag rem) (low7Value rem)

/-- `REM` after a byte of `ENCU` was accepted: `rest = lsr64(REM, 7)`, after the last byte as well (R70). -/
def encuRest (rem : Value) : Value := lsr64 rem 7

/-- One beat of `ENCU` (R70). -/
def encuBeat (s : State) : StepResult := encoderBeat encuByte (fun rem => !moreFlag rem) encuRest s

/-- `ENCU` (R70). -/
def execEncu (valIn : Value) (s : State) : StepResult :=
  operate 0b00#2 (fun s => accept s.sink.link 0b00#2 (s.issueEncoder valIn)) encuBeat s

end Sys2Proof.Machine
end

