-- ==== Sys2Proof/Machine/Dispatch.lean ====
section
/-! DEFINITION. One arm per instruction (30_encoding.md R51). -/

namespace Sys2Proof.Machine

def exec (i : Instr) (s : State) : Host.Outcome State Fault Refusal :=
  match i with
  | .encu valIn => Sys2Proof.Machine.execEncu valIn s
  | .decu => Sys2Proof.Machine.execDecu s
  | .encs valIn => Sys2Proof.Machine.execEncs valIn s
  | .decs => Sys2Proof.Machine.execDecs s

end Sys2Proof.Machine
end

