-- ==== Sys2Proof/Machine/Requester.lean ====
section
/-! DEFINITION. The requester's side: reading the response registers (10_state.md R17, R23; 93_implementation_defined.md
U15) and the response as R65 writes it. -/

namespace Sys2Proof.Machine

/-- The register behind a response register's name. -/
def ResponseReg.regName : ResponseReg → RegName
  | .status => .status
  | .valOut => .valOut
  | .count => .count

/-- What a response read answers: the content, or the fault of the model. -/
abbrev ReadResult (w : Nat) := Except Fault (BitVec w)

/-- Reading one response register: only in `IDLE` (R17, U15), and only where it holds a value (R23). -/
def readContent {w : Nat} (phase : Phase) (r : ResponseReg) (content : Reg w) : ReadResult w :=
  match phase, content with
  | .run, _ => .error (.staleResponse r)
  | .idle, .noValue => .error (.noValue r.regName)
  | .idle, .holds v => .ok v

/-- Reading `STATUS`. -/
def State.readStatus (s : State) : ReadResult 2 := readContent s.phase .status s.status

/-- Reading `VAL_OUT`. -/
def State.readValOut (s : State) : ReadResult 64 := readContent s.phase .valOut s.valOut

/-- Reading `COUNT`. -/
def State.readCount (s : State) : ReadResult 4 := readContent s.phase .count s.count

/-- The fault a read of a response register raises, if any. -/
def State.readFault (s : State) (r : ResponseReg) : Option Fault :=
  match r with
  | .status => match s.readStatus with | .ok _ => none | .error f => some f
  | .valOut => match s.readValOut with | .ok _ => none | .error f => some f
  | .count => match s.readCount with | .ok _ => none | .error f => some f

/-- A response as the requester sees it (R54, R65). -/
inductive Response where
  | ok (value : Reg 64) (count : BitVec 4)
  | endOfInput (count : BitVec 4)
  | overflow (count : BitVec 4)
  | writeError (count : BitVec 4)
  deriving DecidableEq, Repr

/-- The response registers read together; `VAL_OUT` is read on success only, and is "no value" after an encoder (R17). -/
def State.response (s : State) : Except Fault Response :=
  match s.readStatus, s.readCount with
  | .error f, _ => .error f
  | _, .error f => .error f
  | .ok st, .ok n =>
      match Status.ofCode st with
      | .ok => .ok (.ok s.valOut n)
      | .endOfInput => .ok (.endOfInput n)
      | .overflow => .ok (.overflow n)
      | .writeError => .ok (.writeError n)

/-- A decoded value as a number: u64 after `DECU`, i64 after `DECS` (R15, R65). -/
def valueText (signed : Bool) (v : Value) : String :=
  if signed then toString v.toInt else toString v.toNat

/-- A response as R65 writes it. -/
def Response.text (signed : Bool) : Response → String
  | .ok .noValue n => "-> OK count=" ++ toString n.toNat
  | .ok (.holds v) n => "-> OK value=" ++ valueText signed v ++ " count=" ++ toString n.toNat
  | .endOfInput n => "-> END_OF_INPUT count=" ++ toString n.toNat
  | .overflow n => "-> OVERFLOW count=" ++ toString n.toNat
  | .writeError n => "-> WRITE_ERROR count=" ++ toString n.toNat

end Sys2Proof.Machine
end

