-- ==== Sys2Proof/Machine/Sequencer.lean ====
section
/-! DEFINITION. What a step of the machine does: the next move of the outside world, and the core's own advance
(10_state.md R12, R13, R18; 70_reset_and_hazards.md R141, R152). -/

namespace Sys2Proof.Machine

/-- The core left to itself: in `IDLE` it does nothing (R12, R140); in `RUN` it performs one beat of the operation in
`OPSEL` (R13). -/
def advance (s : State) : StepResult :=
  match s.phase with
  | .idle => .next s
  | .run => readReg .opsel s.opsel fun op => exec (selected op) s

/-- A command word at the port: in `IDLE` it is decoded and its operation accepted (R50); in `RUN` it is not accepted,
has no effect and is not queued, and the running operation goes on (R152). -/
def offer (w : CommandWord) (s : State) : StepResult :=
  match s.phase with
  | .idle => exec (decode w) s
  | .run => advance s

/-- The platform presents the sink's contents as the reference source (R41; 95_test_vectors.md P1 to P3). -/
def State.presentSink (s : State) : State :=
  { s with source := { link := .exclusive, behaviour := .reference s.sink.data 0 } }

/-- One move of the outside world, on the state from which it has been taken off the list. Moves of the platform, a
reset and a read perform no beat; a wait and an offered command leave the running operation its beat. -/
def takeInput (i : Input) (s : State) : StepResult :=
  match i with
  | .wait => advance s
  | .awaitIdle => .next s
  | .command w => offer w s
  | .read r => match s.readFault r with
      | none => .next s
      | some f => .fault f
  | .reset => .next s.coreReset
  | .attachSource src => .next { s with source := src }
  | .attachSink snk => .next { s with sink := snk }
  | .presentSink => .next s.presentSink

/-- One step. Where the outside world has no move left, or waits for `IDLE` in `RUN`, the core advances by itself;
otherwise the next move is taken off the list and made. -/
def stepState (s : State) : StepResult :=
  match s.inputs with
  | [] => advance s
  | i :: rest =>
      if i = .awaitIdle ∧ s.phase = .run then advance s
      else takeInput i { s with inputs := rest }

/-- The requester offers this command word at the next step, the core being ready to take it (R50). -/
def State.offering (s : State) (w : CommandWord) : State :=
  { s with phase := .idle, inputs := .command w :: s.inputs }

end Sys2Proof.Machine
end

