-- ==== Sys2Proof/Machine/Step.lean ====
section
/-! DEFINITION. The step of the machine, and where it takes its next command word from. -/

namespace Sys2Proof.Machine

/-- One step of the machine. -/
def step (s : State) : Host.Outcome State Fault Refusal := stepState s

/-- `s` with the command word `w`, of `nbits` bits, at the command port and the core in `IDLE`, so that the next step
accepts it: the core fetches no instruction (R18), a command is given to it (R50). -/
def State.withFetchWord (s : State) (nbits w : Nat) : State :=
  s.offering (BitVec.ofNat 66 (w % 2 ^ nbits))

end Sys2Proof.Machine
end

