-- ==== Sys2Proof/Machine/Wire.lean ====
section
/-! DEFINITION. The wire format by itself (30_encoding.md R55 to R64): which byte lists are sequences, what they stand
for, and the minimal sequences in closed form. The core does not call this file: the statements compare the core
with it. -/

namespace Sys2Proof.Machine.Wire

/-- A sequence: 1 to 10 bytes, the continuation flag set in all but the last (R58). -/
def isSequence (bs : List Byte) : Bool :=
  bs.dropLast.all contFlag && (bs.getLast?.any fun b => !contFlag b) && decide (bs.length ≤ Config.MAXLEN)

/-- The sum of the payloads at 7 times their index, modulo 2^64 (R56). -/
def payloadSum : List Byte → Value
  | [] => 0
  | b :: bs => (low7 b).zeroExtend 64 + payloadSum bs <<< 7

/-- A sequence `DECU` accepts: in a 10-byte one the last byte is 0x00 or 0x01 (R61, R63). -/
def legalUnsigned (bs : List Byte) : Bool :=
  isSequence bs && (bs.length != 10 || bs.getLast? == some 0x00 || bs.getLast? == some 0x01)

/-- A sequence `DECS` accepts: in a 10-byte one the last byte is 0x00 or 0x7f (R62, R63). -/
def legalSigned (bs : List Byte) : Bool :=
  isSequence bs && (bs.length != 10 || bs.getLast? == some 0x00 || bs.getLast? == some 0x7f)

/-- The unsigned value of a sequence (R56). -/
def unsignedValue (bs : List Byte) : Value := payloadSum bs

/-- The signed value of a sequence (R57): with `T = 7n`, bits 63 down to `T` set where `T < 64` and bit 6 of the last byte
is set. -/
def signedValue (bs : List Byte) : Value :=
  if 7 * bs.length < 64 ∧ (bs.getLast?.any signFlag) = true then payloadSum bs ||| lsl64 ones64 (7 * bs.length)
  else payloadSum bs

/-- The position of the highest set bit plus one; 0 for 0 (R59). -/
def bitlen (v : Value) : Nat := if v = 0 then 0 else v.toNat.log2 + 1

/-- The length of the minimal unsigned sequence: `max(1, ceil(bitlen(v)/7))` (R59). -/
def unsignedLength (v : Value) : Nat := max 1 ((bitlen v + 6) / 7)

/-- `v` fits `n` groups of two's complement: `-2^(7n-1) <= v <= 2^(7n-1)-1` (R59). -/
def fitsSigned (v : Value) (n : Nat) : Bool :=
  decide (-(2 : Int) ^ (7 * n - 1) ≤ v.toInt) && decide (v.toInt ≤ 2 ^ (7 * n - 1) - 1)

/-- The length of the minimal signed sequence: the least `n >= 1` with `v` in range (R59). -/
def signedLength (v : Value) : Nat := ((List.range' 1 10).find? (fitsSigned v)).getD 10

/-- The minimal unsigned sequence in closed form (R71): byte `i` of `n` carries bits 7i+6 to 7i. -/
def encodeUnsigned (v : Value) : List Byte :=
  (List.range (unsignedLength v)).map fun i =>
    wireByte (decide (i + 1 < unsignedLength v)) (v.extractLsb' (7 * i) 7)

/-- The minimal signed sequence in closed form (R91): the groups of `v` sign-extended without limit. -/
def encodeSigned (v : Value) : List Byte :=
  (List.range (signedLength v)).map fun i =>
    wireByte (decide (i + 1 < signedLength v)) ((v.sshiftRight (7 * i)).extractLsb' 0 7)

end Sys2Proof.Machine.Wire
end

