-- ==== Sys2Proof/Machine/Operation.lean ====
section
/-! DEFINITION. A whole operation: the issue step and then beats until it ends (92_eei_decisions.md D3). -/

namespace Sys2Proof.Machine

/-- At most `n` beats of `i`, stopping as soon as the core is back in `IDLE`. -/
def beats (i : Instr) : Nat → State → StepResult
  | 0, s => .next s
  | n + 1, s =>
      match s.phase with
      | .idle => .next s
      | .run =>
          match exec i s with
          | .next s' => beats i n s'
          | .fault f => .fault f
          | .refused r => .refused r

/-- How many of at most `n` beats of `i` are performed before the core is back in `IDLE`, or stops. -/
def beatsTaken (i : Instr) : Nat → State → Nat
  | 0, _ => 0
  | n + 1, s =>
      match s.phase with
      | .idle => 0
      | .run =>
          match exec i s with
          | .next s' => beatsTaken i n s' + 1
          | .fault _ => 1
          | .refused _ => 1

/-- The issue step of `i` and at most `n` beats. -/
def performIn (n : Nat) (i : Instr) (s : State) : StepResult :=
  match exec i s with
  | .next s' => beats i n s'
  | .fault f => .fault f
  | .refused r => .refused r

/-- The whole operation `i`: no operation takes more than 10 beats (R151). -/
def perform (i : Instr) (s : State) : StepResult := performIn Config.MAXLEN i s

end Sys2Proof.Machine
end

