-- ==== Sys2Proof/Safety.lean ====
section
/-! DEFINITION. What a consistent state is (the invariant of the machine), what a response may say (10_state.md R17), and
what two states that differ only in what an earlier operation left have in common (R10). -/

namespace Sys2Proof.Machine

/-- The register holds a value. -/
def Reg.hasValue {w : Nat} : Reg w → Bool
  | .noValue => false
  | .holds _ => true

/-- The row of the table of R17 for an operation, its outcome and its response. -/
def responseRow (i : Instr) (status : Status) (valOut : Reg 64) (count : BitVec 4) : Bool :=
  match i, status with
  | .encu _, .ok | .encs _, .ok => valOut == .noValue && decide (1 ≤ count.toNat) && decide (count.toNat ≤ 10)
  | .encu _, .writeError | .encs _, .writeError => valOut == .noValue && decide (count.toNat ≤ 9)
  | .encu _, .endOfInput | .encs _, .endOfInput => false
  | .encu _, .overflow | .encs _, .overflow => false
  | .decu, .ok | .decs, .ok => valOut.hasValue && decide (1 ≤ count.toNat) && decide (count.toNat ≤ 10)
  | .decu, .endOfInput | .decs, .endOfInput => valOut == .noValue && decide (count.toNat ≤ 9)
  | .decu, .overflow | .decs, .overflow => valOut == .noValue && decide (count.toNat = 10)
  | .decu, .writeError | .decs, .writeError => false

/-- The response registers hold nothing at all (reset, R22) or a row of the table of R17. -/
def State.responseLegal (s : State) : Bool :=
  match s.status, s.valOut, s.count with
  | .noValue, .noValue, .noValue => true
  | .holds st, v, .holds n =>
      responseRow (.encu 0) (Status.ofCode st) v n || responseRow .decu (Status.ofCode st) v n
  | _, _, _ => false

/-- The working registers of a running `ENCU`: at most 9 bytes counted, and what is left of the value fits the groups
that are left (R71, R72). -/
def State.encuLegal (s : State) : Bool :=
  match s.rem, s.cnt with
  | .holds r, .holds c => decide (c.toNat ≤ 9) && decide (r.toNat < 2 ^ (64 - 7 * c.toNat))
  | _, _ => false

/-- The working registers of a running `ENCS` (R91, R92). -/
def State.encsLegal (s : State) : Bool :=
  match s.rem, s.cnt with
  | .holds r, .holds c =>
      decide (c.toNat ≤ 9) && decide (-(2 : Int) ^ (63 - 7 * c.toNat) ≤ r.toInt) &&
        decide (r.toInt < 2 ^ (63 - 7 * c.toNat))
  | _, _ => false

/-- The working registers of a running decoder: `SHIFT = 7 * CNT`, at most 9 bytes counted, and `ACC` below bit `SHIFT`
(R16, R81, R101). -/
def State.decoderLegal (s : State) : Bool :=
  match s.acc, s.shift, s.cnt with
  | .holds a, .holds k, .holds c =>
      decide (c.toNat ≤ 9) && decide (k.toNat = 7 * c.toNat) && decide (a.toNat < 2 ^ (7 * c.toNat))
  | _, _, _ => false

/-- In `RUN`, `OPSEL` holds a value and the registers of the operation it selects are as its rule leaves them. -/
def State.workLegal (s : State) : Bool :=
  match s.phase, s.opsel with
  | .idle, _ => true
  | .run, .noValue => false
  | .run, .holds op =>
      match selected op with
      | .encu _ => s.encuLegal
      | .decu => s.decoderLegal
      | .encs _ => s.encsLegal
      | .decs => s.decoderLegal

/-- A move of the platform connects only a well-formed channel. -/
def Input.wf : Input → Bool
  | .wait => true
  | .awaitIdle => true
  | .command _ => true
  | .read _ => true
  | .reset => true
  | .attachSource src => src.wf
  | .attachSink snk => snk.wf
  | .presentSink => true

/-- The invariant of the machine. -/
abbrev State.Consistent (s : State) : Prop :=
  s.responseLegal = true ∧ s.workLegal = true ∧ s.source.wf = true ∧ s.sink.wf = true ∧ s.inputs.all Input.wf = true

/-- Both channels are connected and used by this core alone (R143). -/
abbrev State.Launchable (s : State) : Prop := s.source.link = .exclusive ∧ s.sink.link = .exclusive

/-- The next move of the outside world is a read of a response register. -/
def State.nextIsRead (s : State) : Bool :=
  match s.inputs with
  | .read _ :: _ => true
  | _ => false

/-- The next move of the outside world is a reset of the core. -/
def State.nextIsReset (s : State) : Bool :=
  match s.inputs with
  | .reset :: _ => true
  | _ => false

/-- Two states that agree on the environment and on the phase, and in `RUN` also on `OPSEL` and on the registers that the
running operation reads: they may differ in every register that an earlier operation left behind (R10). -/
def Alike (s t : State) : Prop :=
  s.phase = t.phase ∧ s.source = t.source ∧ s.sink = t.sink ∧ s.inputs = t.inputs ∧
    (s.phase = .run → s.opsel = t.opsel ∧ s.cnt = t.cnt ∧
      ∀ op, s.opsel = .holds op →
        match selected op with
        | .encu _ => s.rem = t.rem
        | .encs _ => s.rem = t.rem
        | .decu => s.acc = t.acc ∧ s.shift = t.shift
        | .decs => s.acc = t.acc ∧ s.shift = t.shift)

/-- The three response registers agree. -/
def SameResponse (s t : State) : Prop :=
  s.status = t.status ∧ s.valOut = t.valOut ∧ s.count = t.count

end Sys2Proof.Machine
end

