-- ==== Sys2Proof/Certificates/Slice0/Obligations.lean ====
section
/-! DEFINITION. What is claimed of the machine: the statements for the provers. -/

open Sys2Proof Sys2Proof.Machine

/-! ### The command word (30_encoding.md) -/

/-- R51: `OP` selects the operation, `VAL_IN` is the encoders' operand. -/
def Obligations.OpFieldSelectsTheOperation : Prop :=
  ∀ v : Value,
    decode (0b00#2 ++ v) = .encu v ∧ decode (0b01#2 ++ v) = .decu ∧
    decode (0b10#2 ++ v) = .encs v ∧ decode (0b11#2 ++ v) = .decs

/-- Four command words of 95_test_vectors.md, P1 and P2, decode to the operations they stand for. -/
def Obligations.WrittenOutWordsDecode : Prop :=
  decode 0x00000000000000082#66 = .encu 130 ∧ decode 0x10000000000000000#66 = .decu ∧
  decode 0x2FFFFFFFFFFFFFF7F#66 = .encs (BitVec.ofInt 64 (-129)) ∧ decode 0x30000000000000000#66 = .decs

/-- R52: every 66-bit word is a valid command. -/
def Obligations.EveryWordIsACommand : Prop :=
  ∀ w : CommandWord, decodeCommand w.toNat = .ok (decode w) ∧ (decode w).wellFormed = true

/-- R53: the decoders ignore `VAL_IN`. -/
def Obligations.DecodeCommandsIgnoreValIn : Prop :=
  ∀ w w' : CommandWord, opField w = opField w' → (opField w).getLsbD 0 = true → decode w = decode w'

/-- Decode and encode agree, in both directions where the word has one meaning. -/
def Obligations.CommandWordsRoundTrip : Prop :=
  (∀ i : Instr, i.wellFormed = true → decode (encode i) = i) ∧
  (∀ w : CommandWord, encode (decode w) = (opField w ++ (if (opField w).getLsbD 0 then 0#64 else valInField w)))

/-- The rows of the opcode table part the command words: each word is accepted by exactly its operation's row. -/
def Obligations.TableRowsPartTheWords : Prop :=
  ∀ w : CommandWord,
    (opcodeTable.filter fun r => r.accepts w).map (fun r => r.mnemonic) = [(decode w).mnemonic]

/-- R65: a written number is accepted exactly in its range and placed as its 64-bit pattern. -/
def Obligations.WrittenOperandIsPlacedAsItsPattern : Prop :=
  (∀ v : Int, (0 ≤ v ∧ v < 2 ^ 64 → ∃ p : Value, (Asm.encu v).assemble = some (.encu p) ∧ (p.toNat : Int) = v) ∧
    (¬ (0 ≤ v ∧ v < 2 ^ 64) → (Asm.encu v).assemble = none)) ∧
  (∀ v : Int, (-2 ^ 63 ≤ v ∧ v < 2 ^ 63 → ∃ p : Value, (Asm.encs v).assemble = some (.encs p) ∧ p.toInt = v) ∧
    (¬ (-2 ^ 63 ≤ v ∧ v < 2 ^ 63) → (Asm.encs v).assemble = none)) ∧
  Asm.decuV.assemble = Asm.decu.assemble ∧ Asm.decsV.assemble = Asm.decs.assemble

/-! ### A step of the machine (10_state.md R12, R13; 70_reset_and_hazards.md R152) -/

/-- A step runs the decoded instruction: the command word at the port, in `IDLE`, is taken and its operation executed. -/
def Obligations.StepRunsTheDecodedCommand : Prop :=
  ∀ (s : State) (w : CommandWord) (rest : List Input) (i : Instr),
    s.phase = .idle → s.inputs = .command w :: rest → decodeCommand w.toNat = .ok i → i.wellFormed = true →
    step s = exec i { s with inputs := rest }

/-- In `RUN` a step is a beat of the operation in `OPSEL`, whatever operand it is named with. -/
def Obligations.StepInRunIsABeatOfTheSelectedOperation : Prop :=
  ∀ (s : State) (rest : List Input) (i : Instr), s.phase = .run → s.opsel = .holds i.op →
    step { s with inputs := [] } = exec i { s with inputs := [] } ∧
    step { s with inputs := .awaitIdle :: rest } = exec i { s with inputs := .awaitIdle :: rest } ∧
    step { s with inputs := .wait :: rest } = exec i { s with inputs := rest }

/-- R152: a command offered in `RUN` has no effect and is not queued, and only a reset ends an operation without a
response. -/
def Obligations.BusyCommandHasNoEffect : Prop :=
  (∀ (s : State) (w : CommandWord) (rest : List Input), s.phase = .run →
    step { s with inputs := .command w :: rest } = step { s with inputs := .wait :: rest }) ∧
  (∀ (s : State) (i : Instr) (op : BitVec 2), s.phase = .run → s.opsel = .holds op → op ≠ i.op → exec i s = .next s) ∧
  (∀ s t : State, s.phase = .run → step s = .next t → t.phase = .idle → s.nextIsReset = false →
    ∃ (st : BitVec 2) (n : BitVec 4), t.status = .holds st ∧ t.count = .holds n ∧ t.cnt = .holds n)

/-- R12 in `IDLE`: without a command the core does nothing. -/
def Obligations.IdleCoreWithoutCommandDoesNothing : Prop :=
  ∀ (s : State) (rest : List Input), s.phase = .idle →
    step { s with inputs := [] } = .next { s with inputs := [] } ∧
    step { s with inputs := .wait :: rest } = .next { s with inputs := rest } ∧
    step { s with inputs := .awaitIdle :: rest } = .next { s with inputs := rest }

/-- A request that is not answered: the core waits, with nothing changed (R47; the stutter is the model's form, log 3). An
encoder waits on its sink, whatever the source would answer, and a decoder on its source, whatever the sink would. -/
def Obligations.UnansweredRequestWaits : Prop :=
  ∀ (s : State) (i : Instr) (v : Value), s.phase = .run → s.opsel = .holds i.op →
    ((i = .encu v ∨ i = .encs v) → s.sink.link = .exclusive → s.sink.behaviour = .script [] →
      (∃ r, s.rem = .holds r) → exec i s = .next s) ∧
    ((i = .decu ∨ i = .decs) → s.source.link = .exclusive → s.source.behaviour = .script [] → exec i s = .next s)

/-! ### The four operations, beat by beat -/

/-- R70: `ENCU`, its encoding, its issue step and its beat. -/
def Obligations.EncuIssueAndBeat : Prop :=
  ∀ (v : Value) (s : State), s.sink.link = .exclusive →
    encode (.encu v) = 0b00#2 ++ v ∧
    (s.phase = .idle →
      exec (.encu v) s = .next { s with phase := .run, opsel := .holds 0b00#2, rem := .holds v, cnt := .holds 0 }) ∧
    ∀ (r : Value) (c : BitVec 4) (snk : Sink),
      s.phase = .run → s.opsel = .holds 0b00#2 → s.rem = .holds r → s.cnt = .holds c →
      (s.sink.answer (BitVec.ofBool (r >>> 7 != 0) ++ r.extractLsb' 0 7) = some (.nak, snk) →
        exec (.encu v) s = .next
          { s with sink := snk, phase := .idle, status := .holds 3, valOut := .noValue, count := .holds c }) ∧
      (s.sink.answer (BitVec.ofBool (r >>> 7 != 0) ++ r.extractLsb' 0 7) = some (.ack, snk) → r >>> 7 ≠ 0 →
        exec (.encu v) s = .next { s with sink := snk, cnt := .holds (c + 1), rem := .holds (r >>> 7) }) ∧
      (s.sink.answer (BitVec.ofBool (r >>> 7 != 0) ++ r.extractLsb' 0 7) = some (.ack, snk) → r >>> 7 = 0 →
        exec (.encu v) s = .next
          { s with sink := snk, cnt := .holds (c + 1), rem := .holds 0, phase := .idle, status := .holds 0,
                   valOut := .noValue, count := .holds (c + 1) })

/-- R90: `ENCS`, its encoding, its issue step and its beat. -/
def Obligations.EncsIssueAndBeat : Prop :=
  ∀ (v : Value) (s : State), s.sink.link = .exclusive →
    encode (.encs v) = 0b10#2 ++ v ∧
    (s.phase = .idle →
      exec (.encs v) s = .next { s with phase := .run, opsel := .holds 0b10#2, rem := .holds v, cnt := .holds 0 }) ∧
    ∀ (r : Value) (c : BitVec 4) (snk : Sink) (done : Bool),
      s.phase = .run → s.opsel = .holds 0b10#2 → s.rem = .holds r → s.cnt = .holds c →
      done = (r.sshiftRight 6 == 0 || r.sshiftRight 6 == 0xFFFFFFFFFFFFFFFF) →
      (s.sink.answer (BitVec.ofBool (!done) ++ r.extractLsb' 0 7) = some (.nak, snk) →
        exec (.encs v) s = .next
          { s with sink := snk, phase := .idle, status := .holds 3, valOut := .noValue, count := .holds c }) ∧
      (s.sink.answer (BitVec.ofBool (!done) ++ r.extractLsb' 0 7) = some (.ack, snk) → done = false →
        exec (.encs v) s = .next
          { s with sink := snk, cnt := .holds (c + 1), rem := .holds ((r.sshiftRight 6).sshiftRight 1) }) ∧
      (s.sink.answer (BitVec.ofBool (!done) ++ r.extractLsb' 0 7) = some (.ack, snk) → done = true →
        exec (.encs v) s = .next
          { s with sink := snk, cnt := .holds (c + 1), phase := .idle, status := .holds 0, valOut := .noValue,
                   count := .holds (c + 1) })

/-- R80: `DECU`, its encoding, its issue step and its beat. -/
def Obligations.DecuIssueAndBeat : Prop :=
  ∀ s : State, s.source.link = .exclusive →
    opField (encode .decu) = 0b01#2 ∧
    (s.phase = .idle →
      exec .decu s = .next
        { s with phase := .run, opsel := .holds 0b01#2, acc := .holds 0, shift := .holds 0, cnt := .holds 0 }) ∧
    ∀ (c : BitVec 4) (src : Source), s.phase = .run → s.opsel = .holds 0b01#2 → s.cnt = .holds c →
      (s.source.answer = some (.endOfInput, src) →
        exec .decu s = .next
          { s with source := src, phase := .idle, status := .holds 1, valOut := .noValue, count := .holds c }) ∧
      ∀ (k : BitVec 7) (b : Byte), s.shift = .holds k → s.source.answer = some (.byte b, src) →
        (k = 63 → b ≠ 0x00 → b ≠ 0x01 →
          exec .decu s = .next
            { s with source := src, cnt := .holds (c + 1), phase := .idle, status := .holds 2, valOut := .noValue,
                     count := .holds (c + 1) }) ∧
        ∀ (a : Value), s.acc = .holds a → k.toNat ≤ 63 →
          (k ≠ 63 → b.getLsbD 7 = true →
            exec .decu s = .next
              { s with source := src, cnt := .holds (c + 1), shift := .holds (k + 7),
                       acc := .holds (a ||| (((b &&& 0x7f).zeroExtend 64) <<< k.toNat)) }) ∧
          ((k = 63 → b = 0x00 ∨ b = 0x01) → b.getLsbD 7 = false →
            exec .decu s = .next
              { s with source := src, cnt := .holds (c + 1), phase := .idle, status := .holds 0,
                       count := .holds (c + 1),
                       acc := .holds (a ||| (((b &&& 0x7f).zeroExtend 64) <<< k.toNat)),
                       valOut := .holds (a ||| (((b &&& 0x7f).zeroExtend 64) <<< k.toNat)) })

/-- R100: `DECS`, its encoding, its issue step and its beat. -/
def Obligations.DecsIssueAndBeat : Prop :=
  ∀ s : State, s.source.link = .exclusive →
    opField (encode .decs) = 0b11#2 ∧
    (s.phase = .idle →
      exec .decs s = .next
        { s with phase := .run, opsel := .holds 0b11#2, acc := .holds 0, shift := .holds 0, cnt := .holds 0 }) ∧
    ∀ (c : BitVec 4) (src : Source), s.phase = .run → s.opsel = .holds 0b11#2 → s.cnt = .holds c →
      (s.source.answer = some (.endOfInput, src) →
        exec .decs s = .next
          { s with source := src, phase := .idle, status := .holds 1, valOut := .noValue, count := .holds c }) ∧
      ∀ (k : BitVec 7) (b : Byte), s.shift = .holds k → s.source.answer = some (.byte b, src) →
        (k = 63 → b ≠ 0x00 → b ≠ 0x7f →
          exec .decs s = .next
            { s with source := src, cnt := .holds (c + 1), phase := .idle, status := .holds 2, valOut := .noValue,
                     count := .holds (c + 1) }) ∧
        ∀ (a : Value), s.acc = .holds a → k.toNat ≤ 63 →
          (k ≠ 63 → b.getLsbD 7 = true →
            exec .decs s = .next
              { s with source := src, cnt := .holds (c + 1), shift := .holds (k + 7),
                       acc := .holds (a ||| (((b &&& 0x7f).zeroExtend 64) <<< k.toNat)) }) ∧
          (∀ v : Value, (k = 63 → b = 0x00 ∨ b = 0x7f) → b.getLsbD 7 = false →
            v = (if k.toNat + 7 < 64 ∧ b.getLsbD 6 = true
                  then a ||| (((b &&& 0x7f).zeroExtend 64) <<< k.toNat) ||| (0xFFFFFFFFFFFFFFFF#64 <<< (k.toNat + 7))
                  else a ||| (((b &&& 0x7f).zeroExtend 64) <<< k.toNat)) →
            exec .decs s = .next
              { s with source := src, cnt := .holds (c + 1), phase := .idle, status := .holds 0,
                       count := .holds (c + 1), acc := .holds v, valOut := .holds v })

/-- The table of R69: what each byte, and `END`, does at each position of a running decoder. -/
def Obligations.ByteTableOfTheDecoders : Prop :=
  ∀ (s : State) (c : BitVec 4) (b : Byte) (src : Source),
    s.Consistent → s.phase = .run → s.source.link = .exclusive → s.cnt = .holds c →
    (s.source.answer = some (.endOfInput, src) →
      (s.opsel = .holds 0b01#2 → ∃ t, exec .decu s = .next t ∧ t.phase = .idle ∧ t.status = .holds 1) ∧
      (s.opsel = .holds 0b11#2 → ∃ t, exec .decs s = .next t ∧ t.phase = .idle ∧ t.status = .holds 1)) ∧
    (s.source.answer = some (.byte b, src) → s.opsel = .holds 0b01#2 →
      ∃ t, exec .decu s = .next t ∧
        (c ≠ 9 → b.toNat < 0x80 → t.phase = .idle ∧ t.status = .holds 0) ∧
        (c ≠ 9 → 0x80 ≤ b.toNat → t.phase = .run) ∧
        (c = 9 → t.phase = .idle) ∧
        (c = 9 → b = 0x00 → t.status = .holds 0 ∧ ∃ v : Value, t.valOut = .holds v ∧ v.getLsbD 63 = false) ∧
        (c = 9 → b = 0x01 → t.status = .holds 0 ∧ ∃ v : Value, t.valOut = .holds v ∧ v.getLsbD 63 = true) ∧
        (c = 9 → 0x02 ≤ b.toNat → t.status = .holds 2)) ∧
    (s.source.answer = some (.byte b, src) → s.opsel = .holds 0b11#2 →
      ∃ t, exec .decs s = .next t ∧
        (c ≠ 9 → b.toNat < 0x80 → t.phase = .idle ∧ t.status = .holds 0 ∧
          ∃ v : Value, t.valOut = .holds v ∧ v.getLsbD 63 = b.getLsbD 6) ∧
        (c ≠ 9 → 0x80 ≤ b.toNat → t.phase = .run) ∧
        (c = 9 → t.phase = .idle) ∧
        (c = 9 → b = 0x00 → t.status = .holds 0 ∧ ∃ v : Value, t.valOut = .holds v ∧ v.getLsbD 63 = false) ∧
        (c = 9 → b = 0x7f → t.status = .holds 0 ∧ ∃ v : Value, t.valOut = .holds v ∧ v.getLsbD 63 = true) ∧
        (c = 9 → b ≠ 0x00 → b ≠ 0x7f → t.status = .holds 2))

/-- Where a beat stops with a fault of the model: on a register that holds no value, where the beat reads it. That such a
read faults is R6 and R23; the ORDER, each register read at the line of the pseudocode of R70, R80, R90, R100 that reads it,
and so some of them only once the channel has answered, is the model's choice, log 2 (DEDUCED). The fault on a `SHIFT` above
63, for which R6 defines no shift, is the model's choice too, log 8. No run reaches these states. -/
def Obligations.BeatOnUnwrittenRegistersFaults : Prop :=
  ∀ (i : Instr) (v : Value) (s : State), s.phase = .run →
    (s.opsel = .noValue → exec i s = .fault (.noValue .opsel) ∧ step { s with inputs := [] } = .fault (.noValue .opsel)) ∧
    (s.opsel = .holds i.op → (i = .encu v ∨ i = .encs v) →
      (s.rem = .noValue → exec i s = .fault (.noValue .rem)) ∧
      (∀ r a snk, s.rem = .holds r → s.sink.link = .exclusive →
        s.sink.answer (if i.op = 0b00#2 then encuByte r else encsByte r) = some (a, snk) → s.cnt = .noValue →
        exec i s = .fault (.noValue .cnt))) ∧
    (s.opsel = .holds i.op → (i = .decu ∨ i = .decs) → s.source.link = .exclusive →
      (∀ a src, s.source.answer = some (a, src) → s.cnt = .noValue → exec i s = .fault (.noValue .cnt)) ∧
      (∀ b src c, s.source.answer = some (.byte b, src) → s.cnt = .holds c →
        (s.shift = .noValue → exec i s = .fault (.noValue .shift)) ∧
        (∀ k, s.shift = .holds k →
          (k.toNat = 63 → b = 0x00 ∨ i = .decu ∧ b = 0x01 ∨ i = .decs ∧ b = 0x7f) →
          (s.acc = .noValue → exec i s = .fault (.noValue .acc)) ∧
          (∀ a, s.acc = .holds a → 63 < k.toNat → exec i s = .fault .shiftUndefined))))

/-! ### What each operation changes and what it leaves -/

/-- R43: an encoder never touches the source, a decoder never touches the sink. -/
def Obligations.EachOperationHasOneChannel : Prop :=
  ∀ s t : State,
    (∀ v, exec (.encu v) s = .next t → t.source = s.source) ∧
    (∀ v, exec (.encs v) s = .next t → t.source = s.source) ∧
    (exec .decu s = .next t → t.sink = s.sink) ∧
    (exec .decs s = .next t → t.sink = s.sink)

/-- The frame of `ENCU` and `ENCS` (the encoders' columns of R25): the byte appended is the one the rule computes from
`REM`, and nothing else is appended or removed. -/
def Obligations.EncoderFrame : Prop :=
  ∀ (i : Instr) (v : Value) (s t : State), (i = .encu v ∨ i = .encs v) → exec i s = .next t →
    t.acc = s.acc ∧ t.shift = s.shift ∧ t.source = s.source ∧ t.inputs = s.inputs ∧ t.sink.link = s.sink.link ∧
    (s.phase = .idle → t.sink = s.sink ∧ SameResponse s t) ∧
    (s.phase = .run → t.opsel = s.opsel ∧ (t.phase = .run → SameResponse s t)) ∧
    (s.phase = .run → s.opsel ≠ .holds i.op → t = s) ∧
    (s.phase = .run → s.opsel = .holds i.op → ∀ (r : Value) (b : Byte), s.rem = .holds r →
      b = (if i.op = 0b00#2 then encuByte r else encsByte r) →
      ((s.sink.answer b).map Prod.fst = some .ack → t.sink.data = s.sink.data ++ [b]) ∧
      ((s.sink.answer b).map Prod.fst ≠ some .ack →
        t.sink.data = s.sink.data ∧ t.rem = s.rem ∧ t.cnt = s.cnt))

/-- The frame of `DECU` and `DECS` (the decoders' columns of R25): what leaves the source is the byte it answers. -/
def Obligations.DecoderFrame : Prop :=
  ∀ (i : Instr) (s t : State), (i = .decu ∨ i = .decs) → exec i s = .next t →
    t.rem = s.rem ∧ t.sink = s.sink ∧ t.inputs = s.inputs ∧ t.source.link = s.source.link ∧
    (s.phase = .idle → t.source = s.source ∧ SameResponse s t) ∧
    (s.phase = .run → t.opsel = s.opsel ∧ (t.phase = .run → SameResponse s t)) ∧
    (s.phase = .run → s.opsel ≠ .holds i.op → t = s) ∧
    (s.phase = .run → s.opsel = .holds i.op →
      (∀ b src, s.source.answer = some (.byte b, src) → t.source = src ∧ s.source.unread = b :: t.source.unread) ∧
      ((∀ b src, s.source.answer ≠ some (.byte b, src)) →
        t.source.unread = s.source.unread ∧ t.acc = s.acc ∧ t.shift = s.shift ∧ t.cnt = s.cnt))

/-- Bits of `ACC` are only ever set, never cleared, while a decoder runs (R15). -/
def Obligations.AccumulatorBitsAreOnlySet : Prop :=
  ∀ (i : Instr) (s t : State) (a : Value), (i = .decu ∨ i = .decs) → s.phase = .run → s.acc = .holds a →
    exec i s = .next t → ∃ a' : Value, t.acc = .holds a' ∧ a ||| a' = a'

/-- R17: the response registers are written by the beat that ends an operation, all three together, with a row of the
table. -/
def Obligations.ResponseIsWrittenAtTheEnd : Prop :=
  ∀ (i : Instr) (s t : State), s.Consistent → exec i s = .next t →
    (t.phase = .run → SameResponse s t) ∧
    (s.phase = .run → t.phase = .idle →
      ∃ (st : BitVec 2) (n : BitVec 4),
        t.status = .holds st ∧ t.count = .holds n ∧ t.cnt = .holds n ∧ responseRow i (Status.ofCode st) t.valOut n = true)

/-! ### Errors (60_exceptions.md) -/

/-- R120: the codes, and which operations report which. -/
def Obligations.StatusCodesAndWhoRaisesThem : Prop :=
  (Status.ok.code = 0 ∧ Status.endOfInput.code = 1 ∧ Status.overflow.code = 2 ∧ Status.writeError.code = 3) ∧
  ∀ (i : Instr) (v : Value) (s t : State), s.phase = .run → exec i s = .next t → t.phase = .idle →
    ((i = .encu v ∨ i = .encs v) → t.status = .holds Status.ok.code ∨ t.status = .holds Status.writeError.code) ∧
    ((i = .decu ∨ i = .decs) → t.status = .holds Status.ok.code ∨ t.status = .holds Status.endOfInput.code ∨
      t.status = .holds Status.overflow.code)

/-- R125: what raising an error does, and that it changes nothing else: `STATUS` is one of the three codes; only an
overflow counts a byte, the one it has just taken from the source; no other register and no byte of a channel changes. -/
def Obligations.RaisingAnError : Prop :=
  ∀ (i : Instr) (s t : State), s.phase = .run → exec i s = .next t → t.phase = .idle → t.status ≠ .holds 0 →
    (t.status = .holds 1 ∨ t.status = .holds 2 ∨ t.status = .holds 3) ∧
    t.count = t.cnt ∧ t.valOut = .noValue ∧ t.opsel = s.opsel ∧ t.rem = s.rem ∧ t.acc = s.acc ∧ t.shift = s.shift ∧
    t.inputs = s.inputs ∧ t.sink.data = s.sink.data ∧ t.sink.link = s.sink.link ∧ t.source.link = s.source.link ∧
    (t.status = .holds 1 ∨ t.status = .holds 3 → t.cnt = s.cnt ∧ t.source.unread = s.source.unread) ∧
    (t.status = .holds 2 →
      (∃ c : BitVec 4, s.cnt = .holds c ∧ t.cnt = .holds (c + 1)) ∧ ∃ b : Byte, s.source.unread = b :: t.source.unread)

/-- R126: the bytes counted in `COUNT` have been moved, and no other byte has. -/
def Obligations.CountIsTheBytesMoved : Prop :=
  ∀ (i : Instr) (v : Value) (s t : State), s.phase = .idle → perform i s = .next t → t.phase = .idle →
    ∃ n : BitVec 4, t.count = .holds n ∧
      ((i = .encu v ∨ i = .encs v) → t.source = s.source ∧
        ∃ bs : List Byte, bs.length = n.toNat ∧ t.sink.data = s.sink.data ++ bs) ∧
      ((i = .decu ∨ i = .decs) → t.sink = s.sink ∧
        ∃ bs : List Byte, bs.length = n.toNat ∧ s.source.unread = bs ++ t.source.unread)

/-- R134: an operation that reports `OK` has moved one whole sequence, for any environment; a decoder's value is that
sequence's, and it has taken no byte after it. -/
def Obligations.OkMeansAWholeSequence : Prop :=
  ∀ (s t : State), s.phase = .idle → t.phase = .idle → t.status = .holds 0 →
    (∀ v, perform (.encu v) s = .next t → t.sink.data = s.sink.data ++ Wire.encodeUnsigned v) ∧
    (∀ v, perform (.encs v) s = .next t → t.sink.data = s.sink.data ++ Wire.encodeSigned v) ∧
    (perform .decu s = .next t → ∃ bs, Wire.legalUnsigned bs = true ∧ s.source.unread = bs ++ t.source.unread ∧
      t.count = .holds (BitVec.ofNat 4 bs.length) ∧ t.valOut = .holds (Wire.unsignedValue bs)) ∧
    (perform .decs s = .next t → ∃ bs, Wire.legalSigned bs = true ∧ s.source.unread = bs ++ t.source.unread ∧
      t.count = .holds (BitVec.ofNat 4 bs.length) ∧ t.valOut = .holds (Wire.signedValue bs))

/-- R45: after a refused write the sink holds the first `COUNT` bytes of the sequence, and nothing more. -/
def Obligations.RefusedWriteLeavesThePrefix : Prop :=
  ∀ (i : Instr) (v : Value) (bs : List Byte) (s : State) (k : Nat),
    (i = .encu v ∧ bs = Wire.encodeUnsigned v ∨ i = .encs v ∧ bs = Wire.encodeSigned v) →
    s.phase = .idle → s.sink.link = .exclusive → k < bs.length → s.sink.refusesAfter k = true →
    ∃ t, perform i s = .next t ∧ t.phase = .idle ∧ t.status = .holds 3 ∧ t.count = .holds (BitVec.ofNat 4 k) ∧
      t.valOut = .noValue ∧ t.sink.data = s.sink.data ++ bs.take k

/-- R64: a stream that ends before a byte with continuation flag 0, the empty one included, is `END_OF_INPUT`. -/
def Obligations.TruncatedStreamIsEndOfInput : Prop :=
  ∀ (i : Instr) (bs : List Byte) (s : State), (i = .decu ∨ i = .decs) → s.phase = .idle → s.source.link = .exclusive →
    bs.all contFlag = true → bs.length ≤ 9 → s.source.endsAfter bs = true →
    ∃ t, perform i s = .next t ∧ t.phase = .idle ∧ t.status = .holds 1 ∧
      t.count = .holds (BitVec.ofNat 4 bs.length) ∧ t.valOut = .noValue ∧ s.source.unread = bs ++ t.source.unread

/-- R61, R62, R63: the 10th byte must be exactly one of the two legal ones; otherwise `OVERFLOW`, and the source stands
just after it. -/
def Obligations.IllegalTenthByteOverflows : Prop :=
  ∀ (i : Instr) (bs : List Byte) (b : Byte) (s : State), s.phase = .idle → s.source.link = .exclusive →
    bs.all contFlag = true → bs.length = 9 → s.source.yields (bs ++ [b]) = true →
    (i = .decu ∧ b ≠ 0x00 ∧ b ≠ 0x01 ∨ i = .decs ∧ b ≠ 0x00 ∧ b ≠ 0x7f) →
    ∃ t, perform i s = .next t ∧ t.phase = .idle ∧ t.status = .holds 2 ∧ t.count = .holds 10 ∧ t.valOut = .noValue ∧
      t.source = s.source.advanced 10

/-! ### Whole operations -/

/-- R71: `ENCU` appends the closed form of its output; after `k` bytes `REM` is the value shifted by `7k`. -/
def Obligations.EncuAppendsTheClosedForm : Prop :=
  ∀ (v : Value) (s : State), s.phase = .idle → s.sink.link = .exclusive →
    s.sink.accepts (Wire.unsignedLength v) = true →
    (∃ t, perform (.encu v) s = .next t ∧ t.phase = .idle ∧ t.status = .holds 0 ∧ t.valOut = .noValue ∧
      t.count = .holds (BitVec.ofNat 4 (Wire.unsignedLength v)) ∧ t.sink = s.sink.accepted (Wire.encodeUnsigned v) ∧
      t.rem = .holds (v >>> (7 * Wire.unsignedLength v)) ∧ t.cnt = .holds (BitVec.ofNat 4 (Wire.unsignedLength v))) ∧
    ∀ k, k < Wire.unsignedLength v →
      ∃ t, performIn k (.encu v) s = .next t ∧ t.phase = .run ∧ t.rem = .holds (v >>> (7 * k)) ∧
        t.cnt = .holds (BitVec.ofNat 4 k) ∧ t.sink = s.sink.accepted ((Wire.encodeUnsigned v).take k)

/-- R91: `ENCS` appends the closed form of its output; after beat `k` `REM` is the value shifted arithmetically by `7k`. -/
def Obligations.EncsAppendsTheClosedForm : Prop :=
  ∀ (v : Value) (s : State), s.phase = .idle → s.sink.link = .exclusive →
    s.sink.accepts (Wire.signedLength v) = true →
    (∃ t, perform (.encs v) s = .next t ∧ t.phase = .idle ∧ t.status = .holds 0 ∧ t.valOut = .noValue ∧
      t.count = .holds (BitVec.ofNat 4 (Wire.signedLength v)) ∧ t.sink = s.sink.accepted (Wire.encodeSigned v)) ∧
    ∀ k, k < Wire.signedLength v →
      ∃ t, performIn k (.encs v) s = .next t ∧ t.phase = .run ∧ t.rem = .holds (v.sshiftRight (7 * k)) ∧
        t.cnt = .holds (BitVec.ofNat 4 k) ∧ t.sink = s.sink.accepted ((Wire.encodeSigned v).take k)

/-- R81: `DECU` rebuilds the unsigned value of a legal sequence; before the beat that reads byte `k`, `SHIFT = 7k`,
`CNT = k` and `ACC` is the sum of the payloads read. -/
def Obligations.DecuRebuildsTheUnsignedValue : Prop :=
  ∀ (bs : List Byte) (s : State), s.phase = .idle → s.source.link = .exclusive →
    Wire.legalUnsigned bs = true → s.source.yields bs = true →
    (∃ t, perform .decu s = .next t ∧ t.phase = .idle ∧ t.status = .holds 0 ∧
      t.valOut = .holds (Wire.unsignedValue bs) ∧ t.count = .holds (BitVec.ofNat 4 bs.length) ∧
      t.source = s.source.advanced bs.length) ∧
    ∀ k, k < bs.length →
      ∃ t, performIn k .decu s = .next t ∧ t.phase = .run ∧ t.shift = .holds (BitVec.ofNat 7 (7 * k)) ∧
        t.cnt = .holds (BitVec.ofNat 4 k) ∧ t.acc = .holds (Wire.payloadSum (bs.take k))

/-- R101, R57: `DECS` rebuilds the signed value of a legal sequence, which for at most 9 bytes is the two's complement
number its payloads form. -/
def Obligations.DecsRebuildsTheSignedValue : Prop :=
  ∀ (bs : List Byte) (s : State), s.phase = .idle → s.source.link = .exclusive →
    Wire.legalSigned bs = true → s.source.yields bs = true →
    (∃ t, perform .decs s = .next t ∧ t.phase = .idle ∧ t.status = .holds 0 ∧
      t.valOut = .holds (Wire.signedValue bs) ∧ t.count = .holds (BitVec.ofNat 4 bs.length) ∧
      t.source = s.source.advanced bs.length) ∧
    (bs.length ≤ 9 → (Wire.signedValue bs).toInt = ((Wire.payloadSum bs).setWidth (7 * bs.length)).toInt) ∧
    ∀ k, k < bs.length →
      ∃ t, performIn k .decs s = .next t ∧ t.phase = .run ∧ t.shift = .holds (BitVec.ofNat 7 (7 * k)) ∧
        t.cnt = .holds (BitVec.ofNat 4 k) ∧ t.acc = .holds (Wire.payloadSum (bs.take k))

/-- R74: the bytes `ENCU` writes, read by `DECU`, give back the value and the length. -/
def Obligations.UnsignedRoundTrip : Prop :=
  ∀ (v : Value) (s : State), s.phase = .idle →
    s.sink = { link := .exclusive, behaviour := .reference none, data := [] } →
    ∃ t u, perform (.encu v) s = .next t ∧ perform .decu t.presentSink = .next u ∧ t.status = .holds 0 ∧
      u.phase = .idle ∧ u.status = .holds 0 ∧ u.valOut = .holds v ∧ u.count = t.count ∧
      u.count = .holds (BitVec.ofNat 4 t.sink.data.length) ∧ u.source.unread = []

/-- R94: the bytes `ENCS` writes, read by `DECS`, give back the value and the length. -/
def Obligations.SignedRoundTrip : Prop :=
  ∀ (v : Value) (s : State), s.phase = .idle →
    s.sink = { link := .exclusive, behaviour := .reference none, data := [] } →
    ∃ t u, perform (.encs v) s = .next t ∧ perform .decs t.presentSink = .next u ∧ t.status = .holds 0 ∧
      u.phase = .idle ∧ u.status = .holds 0 ∧ u.valOut = .holds v ∧ u.count = t.count ∧
      u.count = .holds (BitVec.ofNat 4 t.sink.data.length) ∧ u.source.unread = []

/-- R151: the number of beats of every operation that ends, whatever its channels answer; and that an operation ends when
its own channel is its alone and answers ten requests. -/
def Obligations.BeatsOfAnOperation : Prop :=
  (∀ (i : Instr) (s t : State), s.phase = .idle → perform i s = .next t → t.phase = .idle →
    ∃ issued : State, ∃ (st : BitVec 2) (n : BitVec 4),
      exec i s = .next issued ∧ t.status = .holds st ∧ t.count = .holds n ∧
      1 ≤ beatsTaken i 10 issued ∧ beatsTaken i 10 issued ≤ 10 ∧
      (Status.ofCode st = .ok → beatsTaken i 10 issued = n.toNat) ∧
      (Status.ofCode st = .writeError ∨ Status.ofCode st = .endOfInput → beatsTaken i 10 issued = n.toNat + 1) ∧
      (Status.ofCode st = .overflow → beatsTaken i 10 issued = 10)) ∧
  (∀ (i : Instr) (v : Value) (s : State), s.phase = .idle →
    ((i = .encu v ∨ i = .encs v) ∧ s.sink.link = .exclusive ∧ s.sink.answersNext 10 = true ∨
      (i = .decu ∨ i = .decs) ∧ s.source.link = .exclusive ∧ s.source.answersNext 10 = true) →
    ∃ t, perform i s = .next t ∧ t.phase = .idle)

/-- Eleven steps of the machine on one command are the issue step and the beats of its operation. -/
def Obligations.RunningStepsPerformTheOperation : Prop :=
  ∀ (s : State) (w : CommandWord), s.phase = .idle →
    Host.Core.run Sys2Proof.core 11 { s with inputs := [.command w] } = perform (decode w) { s with inputs := [] }

/-! ### The wire format (30_encoding.md) -/

/-- R58: a sequence is 1 to 10 bytes long and delimits itself: no stream begins with two different ones. -/
def Obligations.SequencesAreSelfDelimiting : Prop :=
  ∀ bs cs rest rest' : List Byte, Wire.isSequence bs = true → Wire.isSequence cs = true →
    bs ++ rest = cs ++ rest' → 1 ≤ bs.length ∧ bs.length ≤ 10 ∧ bs = cs

/-- The thresholds of R59: which lengths the encoders' sequences have. -/
def Obligations.EncodedLengthThresholds : Prop :=
  (∀ v : Value, (Wire.encodeUnsigned v).length = 1 ↔ v.toNat ≤ 127) ∧
  (∀ (v : Value) (k : Nat), 2 ≤ k → k ≤ 9 →
    ((Wire.encodeUnsigned v).length = k ↔ 2 ^ (7 * (k - 1)) ≤ v.toNat ∧ v.toNat ≤ 2 ^ (7 * k) - 1)) ∧
  (∀ v : Value, (Wire.encodeUnsigned v).length = 10 ↔ 2 ^ 63 ≤ v.toNat) ∧
  (∀ (v : Value) (n : Nat), 1 ≤ n → n ≤ 10 →
    ((Wire.encodeSigned v).length ≤ n ↔ -(2 : Int) ^ (7 * n - 1) ≤ v.toInt ∧ v.toInt ≤ 2 ^ (7 * n - 1) - 1))

/-- R73: the closed form has the value, its last byte is never superfluous, and no shorter sequence has the same value. -/
def Obligations.UnsignedSequenceIsMinimal : Prop :=
  ∀ v : Value, Wire.legalUnsigned (Wire.encodeUnsigned v) = true ∧ Wire.unsignedValue (Wire.encodeUnsigned v) = v ∧
    (2 ≤ (Wire.encodeUnsigned v).length → ∀ b, (Wire.encodeUnsigned v).getLast? = some b → low7 b ≠ 0) ∧
    ∀ bs : List Byte, Wire.legalUnsigned bs = true → Wire.unsignedValue bs = v → (Wire.encodeUnsigned v).length ≤ bs.length

/-- R93: the closed form has the value, `ENCS` stops at the first group that carries the sign of the rest, and no shorter
sequence has the same value. -/
def Obligations.SignedSequenceIsMinimal : Prop :=
  ∀ v : Value, Wire.legalSigned (Wire.encodeSigned v) = true ∧ Wire.signedValue (Wire.encodeSigned v) = v ∧
    (∀ k, k + 1 < Wire.signedLength v → doneFlag (asr64 v (7 * k)) = false) ∧
    doneFlag (asr64 v (7 * (Wire.signedLength v - 1))) = true ∧
    ∀ bs : List Byte, Wire.legalSigned bs = true → Wire.signedValue bs = v → (Wire.encodeSigned v).length ≤ bs.length

/-- R92: the 10th byte of a signed sequence is `0x00` or `0x7f`, by the sign. -/
def Obligations.SignedTailIsTheSign : Prop :=
  ∀ v : Value, (Wire.encodeSigned v).length ≤ 10 ∧
    ((Wire.encodeSigned v).length = 10 →
      (Wire.encodeSigned v).getLast? = some (if v.toInt < 0 then 0x7f else 0x00))

/-- R95: the signed and the unsigned sequence of a non-negative value. -/
def Obligations.NonNegativeValuesSignedAndUnsigned : Prop :=
  ∀ (v : Value) (b : Byte), 0 ≤ v.toInt → (Wire.encodeUnsigned v).getLast? = some b →
    (b.getLsbD 6 = false → Wire.encodeSigned v = Wire.encodeUnsigned v) ∧
    (b.getLsbD 6 = true → Wire.encodeSigned v = (Wire.encodeUnsigned v).dropLast ++ [b ||| 0x80, 0x00])

/-- R60: padding a sequence of fewer than 10 bytes by one group keeps it legal and keeps its value. -/
def Obligations.PaddingKeepsTheValue : Prop :=
  ∀ (bs : List Byte) (b : Byte), Wire.isSequence bs = true → bs.length < 10 → bs.getLast? = some b →
    (Wire.legalUnsigned (bs.dropLast ++ [b ||| 0x80, 0x00]) = true ∧
      Wire.unsignedValue (bs.dropLast ++ [b ||| 0x80, 0x00]) = Wire.unsignedValue bs) ∧
    (Wire.legalSigned (bs.dropLast ++ [b ||| 0x80, if signFlag b then 0x7f else 0x00]) = true ∧
      Wire.signedValue (bs.dropLast ++ [b ||| 0x80, if signFlag b then 0x7f else 0x00]) = Wire.signedValue bs)

/-- For a sequence of at most 9 bytes whose last byte has bit 6 clear, `DECU` and `DECS` report the same (R105). -/
def Obligations.DecodersAgreeWithoutASign : Prop :=
  ∀ (bs : List Byte) (s : State), s.phase = .idle → s.source.link = .exclusive → Wire.isSequence bs = true →
    bs.length ≤ 9 → bs.getLast?.any signFlag = false → s.source.yields bs = true →
    ∃ t u, perform .decu s = .next t ∧ perform .decs s = .next u ∧ SameResponse t u ∧ t.source = u.source ∧
      t.status = .holds 0 ∧ t.count = .holds (BitVec.ofNat 4 bs.length)

/-! ### The channels (20_memory.md) -/

/-- R31: a byte that the source yields is removed from it, first unread byte first; `END` removes nothing. -/
def Obligations.SourceYieldsEachByteOnce : Prop :=
  ∀ (src src' : Source) (b : Byte),
    (src.answer = some (.byte b, src') → src.unread = b :: src'.unread) ∧
    (src.answer = some (.endOfInput, src') → src'.unread = src.unread)

/-- R32: an accepted byte is appended after every byte accepted earlier; a refused one leaves the sink's contents. -/
def Obligations.SinkAppendsOrKeeps : Prop :=
  ∀ (snk snk' : Sink) (b : Byte),
    (snk.answer b = some (.ack, snk') → snk'.data = snk.data ++ [b]) ∧
    (snk.answer b = some (.nak, snk') → snk'.data = snk.data)

/-- R33: the two reference channels, and that any answer may follow any answer. -/
def Obligations.ReferenceChannelsAnswer : Prop :=
  (∀ (l : Link) (bytes : List Byte) (pos : Nat) (h : pos < bytes.length),
    Source.answer ⟨l, .reference bytes pos⟩ = some (.byte bytes[pos], ⟨l, .reference bytes (pos + 1)⟩)) ∧
  (∀ (l : Link) (bytes : List Byte) (pos : Nat), bytes.length ≤ pos →
    Source.answer ⟨l, .reference bytes pos⟩ = some (.endOfInput, ⟨l, .reference bytes pos⟩)) ∧
  (∀ (l : Link) (data : List Byte) (b : Byte),
    Sink.answer ⟨l, .reference none, data⟩ b = some (.ack, ⟨l, .reference none, data ++ [b]⟩)) ∧
  (∀ (l : Link) (cap : Nat) (data : List Byte) (b : Byte),
    Sink.answer ⟨l, .reference (some cap), data⟩ b =
      if data.length < cap then some (.ack, ⟨l, .reference (some cap), data ++ [b]⟩)
      else some (.nak, ⟨l, .reference (some cap), data⟩)) ∧
  (∀ (l : Link) (a : SrcAnswer) (as : List SrcAnswer),
    Source.answer ⟨l, .script (a :: as)⟩ = some (a, ⟨l, .script as⟩)) ∧
  (∀ (l : Link) (a : SnkAnswer) (as : List SnkAnswer) (data : List Byte) (b : Byte),
    (Sink.answer ⟨l, .script (a :: as), data⟩ b).map Prod.fst = some a)

/-- A shared channel is refused, by name (93_implementation_defined.md U7), and so is an absent one (the model's choice,
log 7): when the command is given, and at every beat once the byte to offer is known. -/
def Obligations.SharedChannelIsRefused : Prop :=
  ∀ (s : State) (v : Value),
    (∀ i, (i = .encu v ∨ i = .encs v) → (s.phase = .idle ∨ s.opsel = .holds i.op ∧ ∃ r, s.rem = .holds r) →
      (s.sink.link = .shared → exec i s = .refused .channelShared) ∧
      (s.sink.link = .absent → exec i s = .refused .channelAbsent)) ∧
    (∀ i, (i = .decu ∨ i = .decs) → (s.phase = .idle ∨ s.opsel = .holds i.op) →
      (s.source.link = .shared → exec i s = .refused .channelShared) ∧
      (s.source.link = .absent → exec i s = .refused .channelAbsent))

/-! ### Conditions and integer laws (10_state.md R20; 44_low_bits_helper.md) -/

/-- R110, R111: `low7` of a byte keeps the payload and drops the continuation flag and nothing else; `low7` of a 64-bit
value is the payload of its low byte. -/
def Obligations.LowSevenKeepsThePayload : Prop :=
  (∀ b : Byte, (low7 b).zeroExtend 8 = b &&& 0x7f ∧ b = wireByte (contFlag b) (low7 b)) ∧
  (∀ v : Value, low7Value v = low7 (v.setWidth 8) ∧ (low7Value v).zeroExtend 64 = (v &&& 0xff) &&& 0x7f)

/-- The shift primitives of R6 compute their arithmetic, and shifting arithmetically by 6 and then by 1 is shifting by 7
(R113). -/
def Obligations.ShiftPrimitivesComputeTheirArithmetic : Prop :=
  (∀ (v : Value) (k : Nat), k ≤ 63 →
    (lsl64 v k).toNat = v.toNat * 2 ^ k % 2 ^ 64 ∧ (lsr64 v k).toNat = v.toNat / 2 ^ k ∧
    (asr64 v k).toInt = v.toInt / 2 ^ k) ∧
  (∀ v : Value, asr64 (asr64 v 6) 1 = asr64 v 7)

/-- The four conditions of R20 as the numbers and masks they stand for. -/
def Obligations.InBeatConditions : Prop :=
  (∀ r : Value, moreFlag r = true ↔ 128 ≤ r.toNat) ∧
  (∀ r : Value, doneFlag r = true ↔ (-64 ≤ r.toInt ∧ r.toInt ≤ 63)) ∧
  (∀ b : Byte, contFlag b = true ↔ b &&& Config.CONT ≠ 0) ∧
  (∀ b : Byte, signFlag b = true ↔ b &&& Config.SIGN ≠ 0)

/-! ### Reset, response reads, the invariant, independence -/

/-- R22, R141: reset puts the core in `IDLE`, leaves every other register without a value, and does not touch the
environment; a reset in `RUN` abandons the operation. -/
def Obligations.ResetLeavesNoValues : Prop :=
  (State.reset.phase = .idle ∧ State.reset.opsel = .noValue ∧ State.reset.rem = .noValue ∧
    State.reset.acc = .noValue ∧ State.reset.shift = .noValue ∧ State.reset.cnt = .noValue ∧
    State.reset.status = .noValue ∧ State.reset.valOut = .noValue ∧ State.reset.count = .noValue) ∧
  ∀ (s : State) (rest : List Input), s.inputs = .reset :: rest →
    ∃ t, step s = .next t ∧ t.phase = .idle ∧ t.opsel = .noValue ∧ t.rem = .noValue ∧ t.acc = .noValue ∧
      t.shift = .noValue ∧ t.cnt = .noValue ∧ t.status = .noValue ∧ t.valOut = .noValue ∧ t.count = .noValue ∧
      t.source = s.source ∧ t.sink = s.sink ∧ t.inputs = rest

/-- R23: reading a response register that holds no value is a fault; reading one that holds a value, in `IDLE`, gives the
value and changes nothing. In `RUN` a read is a fault (93_implementation_defined.md U15). -/
def Obligations.ResponseReads : Prop :=
  ∀ (s : State) (rest : List Input),
    (s.phase = .idle → s.valOut = .noValue →
      step { s with inputs := .read .valOut :: rest } = .fault (.noValue .valOut)) ∧
    (s.phase = .idle → s.status = .noValue →
      step { s with inputs := .read .status :: rest } = .fault (.noValue .status)) ∧
    (s.phase = .idle → s.count = .noValue →
      step { s with inputs := .read .count :: rest } = .fault (.noValue .count)) ∧
    (∀ v, s.phase = .idle → s.valOut = .holds v → s.readValOut = .ok v ∧
      step { s with inputs := .read .valOut :: rest } = .next { s with inputs := rest }) ∧
    (∀ v, s.phase = .idle → s.status = .holds v → s.readStatus = .ok v ∧
      step { s with inputs := .read .status :: rest } = .next { s with inputs := rest }) ∧
    (∀ v, s.phase = .idle → s.count = .holds v → s.readCount = .ok v ∧
      step { s with inputs := .read .count :: rest } = .next { s with inputs := rest }) ∧
    (∀ r, s.phase = .run → step { s with inputs := .read r :: rest } = .fault (.staleResponse r))

/-- A response stays valid until the next command is accepted (R153), and may not be read after that (U15). -/
def Obligations.ResponseStaysUntilTheNextCommand : Prop :=
  ∀ s t : State, s.phase = .idle → step s = .next t → s.nextIsReset = false →
    SameResponse s t ∧
    (t.phase = .idle → t.readStatus = s.readStatus ∧ t.readValOut = s.readValOut ∧ t.readCount = s.readCount) ∧
    (t.phase = .run → t.readStatus = .error (.staleResponse .status) ∧ t.readValOut = .error (.staleResponse .valOut) ∧
      t.readCount = .error (.staleResponse .count))

/-- The invariant holds right after reset. -/
def Obligations.ResetIsConsistent : Prop := State.reset.Consistent

/-- Every step keeps the invariant: `SHIFT` is `7 * CNT` and at most 63, `CNT` at most 9 in `RUN`, `ACC` and `REM` within
the groups read and left, the response a row of the table, the channels well-formed (R16, R19, R72, R82, R92, R102). -/
def Obligations.EveryStepKeepsConsistency : Prop :=
  ∀ s t : State, s.Consistent → step s = .next t → t.Consistent

/-- The core's own rules never read an unwritten register and never shift by 64 or more: from a consistent state with
channels of its own every step but a requester's read answers a next state (R23, R112). -/
def Obligations.ConsistentStepsNeverStop : Prop :=
  ∀ s : State, s.Consistent → s.Launchable → s.nextIsRead = false → ∃ t, step s = .next t

/-- R10: no operation's result depends on what an earlier operation left: states that agree on the environment, and in
`RUN` on what the running operation reads, step to states that agree again, with the same response at its end. -/
def Obligations.EarlierOperationsLeaveNoTrace : Prop :=
  ∀ s t s' : State, Alike s t → s.nextIsRead = false → step s = .next s' →
    ∃ t', step t = .next t' ∧ Alike s' t' ∧
      (s.phase = .run → s'.phase = .idle → s.nextIsReset = false → SameResponse s' t')
end

