-- ==== Sys2Proof/Laws/State.lean ====
section
/-! SUPPORT. What each named update of the state leaves in each field, so that no proof unfolds a record update. -/

namespace Sys2Proof.Machine.State

variable (s : State)

@[simp] theorem complete_phase (v : Reg 64) (n : BitVec 4) : (s.complete v n).phase = .idle := rfl
@[simp] theorem complete_opsel (v : Reg 64) (n : BitVec 4) : (s.complete v n).opsel = s.opsel := rfl
@[simp] theorem complete_rem (v : Reg 64) (n : BitVec 4) : (s.complete v n).rem = s.rem := rfl
@[simp] theorem complete_acc (v : Reg 64) (n : BitVec 4) : (s.complete v n).acc = s.acc := rfl
@[simp] theorem complete_shift (v : Reg 64) (n : BitVec 4) : (s.complete v n).shift = s.shift := rfl
@[simp] theorem complete_cnt (v : Reg 64) (n : BitVec 4) : (s.complete v n).cnt = s.cnt := rfl
@[simp] theorem complete_status (v : Reg 64) (n : BitVec 4) : (s.complete v n).status = .holds Status.ok.code := rfl
@[simp] theorem complete_valOut (v : Reg 64) (n : BitVec 4) : (s.complete v n).valOut = v := rfl
@[simp] theorem complete_count (v : Reg 64) (n : BitVec 4) : (s.complete v n).count = .holds n := rfl
@[simp] theorem complete_source (v : Reg 64) (n : BitVec 4) : (s.complete v n).source = s.source := rfl
@[simp] theorem complete_sink (v : Reg 64) (n : BitVec 4) : (s.complete v n).sink = s.sink := rfl
@[simp] theorem complete_inputs (v : Reg 64) (n : BitVec 4) : (s.complete v n).inputs = s.inputs := rfl

@[simp] theorem raise_phase (e : Status) (n : BitVec 4) : (s.raise e n).phase = .idle := rfl
@[simp] theorem raise_opsel (e : Status) (n : BitVec 4) : (s.raise e n).opsel = s.opsel := rfl
@[simp] theorem raise_rem (e : Status) (n : BitVec 4) : (s.raise e n).rem = s.rem := rfl
@[simp] theorem raise_acc (e : Status) (n : BitVec 4) : (s.raise e n).acc = s.acc := rfl
@[simp] theorem raise_shift (e : Status) (n : BitVec 4) : (s.raise e n).shift = s.shift := rfl
@[simp] theorem raise_cnt (e : Status) (n : BitVec 4) : (s.raise e n).cnt = s.cnt := rfl
@[simp] theorem raise_status (e : Status) (n : BitVec 4) : (s.raise e n).status = .holds e.code := rfl
@[simp] theorem raise_valOut (e : Status) (n : BitVec 4) : (s.raise e n).valOut = .noValue := rfl
@[simp] theorem raise_count (e : Status) (n : BitVec 4) : (s.raise e n).count = .holds n := rfl
@[simp] theorem raise_source (e : Status) (n : BitVec 4) : (s.raise e n).source = s.source := rfl
@[simp] theorem raise_sink (e : Status) (n : BitVec 4) : (s.raise e n).sink = s.sink := rfl
@[simp] theorem raise_inputs (e : Status) (n : BitVec 4) : (s.raise e n).inputs = s.inputs := rfl

@[simp] theorem issueEncoder_phase (v : Value) : (s.issueEncoder v).phase = s.phase := rfl
@[simp] theorem issueEncoder_opsel (v : Value) : (s.issueEncoder v).opsel = s.opsel := rfl
@[simp] theorem issueEncoder_rem (v : Value) : (s.issueEncoder v).rem = .holds v := rfl
@[simp] theorem issueEncoder_acc (v : Value) : (s.issueEncoder v).acc = s.acc := rfl
@[simp] theorem issueEncoder_shift (v : Value) : (s.issueEncoder v).shift = s.shift := rfl
@[simp] theorem issueEncoder_cnt (v : Value) : (s.issueEncoder v).cnt = .holds 0 := rfl
@[simp] theorem issueEncoder_status (v : Value) : (s.issueEncoder v).status = s.status := rfl
@[simp] theorem issueEncoder_valOut (v : Value) : (s.issueEncoder v).valOut = s.valOut := rfl
@[simp] theorem issueEncoder_count (v : Value) : (s.issueEncoder v).count = s.count := rfl
@[simp] theorem issueEncoder_source (v : Value) : (s.issueEncoder v).source = s.source := rfl
@[simp] theorem issueEncoder_sink (v : Value) : (s.issueEncoder v).sink = s.sink := rfl
@[simp] theorem issueEncoder_inputs (v : Value) : (s.issueEncoder v).inputs = s.inputs := rfl

@[simp] theorem issueDecoder_phase : (s.issueDecoder).phase = s.phase := rfl
@[simp] theorem issueDecoder_opsel : (s.issueDecoder).opsel = s.opsel := rfl
@[simp] theorem issueDecoder_rem : (s.issueDecoder).rem = s.rem := rfl
@[simp] theorem issueDecoder_acc : (s.issueDecoder).acc = .holds 0 := rfl
@[simp] theorem issueDecoder_shift : (s.issueDecoder).shift = .holds 0 := rfl
@[simp] theorem issueDecoder_cnt : (s.issueDecoder).cnt = .holds 0 := rfl
@[simp] theorem issueDecoder_status : (s.issueDecoder).status = s.status := rfl
@[simp] theorem issueDecoder_valOut : (s.issueDecoder).valOut = s.valOut := rfl
@[simp] theorem issueDecoder_count : (s.issueDecoder).count = s.count := rfl
@[simp] theorem issueDecoder_source : (s.issueDecoder).source = s.source := rfl
@[simp] theorem issueDecoder_sink : (s.issueDecoder).sink = s.sink := rfl
@[simp] theorem issueDecoder_inputs : (s.issueDecoder).inputs = s.inputs := rfl

@[simp] theorem launch_phase (op : BitVec 2) : (s.launch op).phase = .run := rfl
@[simp] theorem launch_opsel (op : BitVec 2) : (s.launch op).opsel = .holds op := rfl
@[simp] theorem launch_rem (op : BitVec 2) : (s.launch op).rem = s.rem := rfl
@[simp] theorem launch_acc (op : BitVec 2) : (s.launch op).acc = s.acc := rfl
@[simp] theorem launch_shift (op : BitVec 2) : (s.launch op).shift = s.shift := rfl
@[simp] theorem launch_cnt (op : BitVec 2) : (s.launch op).cnt = s.cnt := rfl
@[simp] theorem launch_status (op : BitVec 2) : (s.launch op).status = s.status := rfl
@[simp] theorem launch_valOut (op : BitVec 2) : (s.launch op).valOut = s.valOut := rfl
@[simp] theorem launch_count (op : BitVec 2) : (s.launch op).count = s.count := rfl
@[simp] theorem launch_source (op : BitVec 2) : (s.launch op).source = s.source := rfl
@[simp] theorem launch_sink (op : BitVec 2) : (s.launch op).sink = s.sink := rfl
@[simp] theorem launch_inputs (op : BitVec 2) : (s.launch op).inputs = s.inputs := rfl

@[simp] theorem byteWritten_phase (c : BitVec 4) (r : Value) : (s.byteWritten c r).phase = s.phase := rfl
@[simp] theorem byteWritten_opsel (c : BitVec 4) (r : Value) : (s.byteWritten c r).opsel = s.opsel := rfl
@[simp] theorem byteWritten_rem (c : BitVec 4) (r : Value) : (s.byteWritten c r).rem = .holds r := rfl
@[simp] theorem byteWritten_acc (c : BitVec 4) (r : Value) : (s.byteWritten c r).acc = s.acc := rfl
@[simp] theorem byteWritten_shift (c : BitVec 4) (r : Value) : (s.byteWritten c r).shift = s.shift := rfl
@[simp] theorem byteWritten_cnt (c : BitVec 4) (r : Value) : (s.byteWritten c r).cnt = .holds (c + 1) := rfl
@[simp] theorem byteWritten_status (c : BitVec 4) (r : Value) : (s.byteWritten c r).status = s.status := rfl
@[simp] theorem byteWritten_valOut (c : BitVec 4) (r : Value) : (s.byteWritten c r).valOut = s.valOut := rfl
@[simp] theorem byteWritten_count (c : BitVec 4) (r : Value) : (s.byteWritten c r).count = s.count := rfl
@[simp] theorem byteWritten_source (c : BitVec 4) (r : Value) : (s.byteWritten c r).source = s.source := rfl
@[simp] theorem byteWritten_sink (c : BitVec 4) (r : Value) : (s.byteWritten c r).sink = s.sink := rfl
@[simp] theorem byteWritten_inputs (c : BitVec 4) (r : Value) : (s.byteWritten c r).inputs = s.inputs := rfl

@[simp] theorem byteRead_phase (c : BitVec 4) : (s.byteRead c).phase = s.phase := rfl
@[simp] theorem byteRead_opsel (c : BitVec 4) : (s.byteRead c).opsel = s.opsel := rfl
@[simp] theorem byteRead_rem (c : BitVec 4) : (s.byteRead c).rem = s.rem := rfl
@[simp] theorem byteRead_acc (c : BitVec 4) : (s.byteRead c).acc = s.acc := rfl
@[simp] theorem byteRead_shift (c : BitVec 4) : (s.byteRead c).shift = s.shift := rfl
@[simp] theorem byteRead_cnt (c : BitVec 4) : (s.byteRead c).cnt = .holds (c + 1) := rfl
@[simp] theorem byteRead_status (c : BitVec 4) : (s.byteRead c).status = s.status := rfl
@[simp] theorem byteRead_valOut (c : BitVec 4) : (s.byteRead c).valOut = s.valOut := rfl
@[simp] theorem byteRead_count (c : BitVec 4) : (s.byteRead c).count = s.count := rfl
@[simp] theorem byteRead_source (c : BitVec 4) : (s.byteRead c).source = s.source := rfl
@[simp] theorem byteRead_sink (c : BitVec 4) : (s.byteRead c).sink = s.sink := rfl
@[simp] theorem byteRead_inputs (c : BitVec 4) : (s.byteRead c).inputs = s.inputs := rfl

@[simp] theorem overflow_phase (n : BitVec 4) : (s.overflow n).phase = .idle := rfl
@[simp] theorem overflow_opsel (n : BitVec 4) : (s.overflow n).opsel = s.opsel := rfl
@[simp] theorem overflow_rem (n : BitVec 4) : (s.overflow n).rem = s.rem := rfl
@[simp] theorem overflow_acc (n : BitVec 4) : (s.overflow n).acc = s.acc := rfl
@[simp] theorem overflow_shift (n : BitVec 4) : (s.overflow n).shift = s.shift := rfl
@[simp] theorem overflow_cnt (n : BitVec 4) : (s.overflow n).cnt = s.cnt := rfl
@[simp] theorem overflow_status (n : BitVec 4) : (s.overflow n).status = .holds Status.overflow.code := rfl
@[simp] theorem overflow_valOut (n : BitVec 4) : (s.overflow n).valOut = .noValue := rfl
@[simp] theorem overflow_count (n : BitVec 4) : (s.overflow n).count = .holds n := rfl
@[simp] theorem overflow_source (n : BitVec 4) : (s.overflow n).source = s.source := rfl
@[simp] theorem overflow_sink (n : BitVec 4) : (s.overflow n).sink = s.sink := rfl
@[simp] theorem overflow_inputs (n : BitVec 4) : (s.overflow n).inputs = s.inputs := rfl

@[simp] theorem payloadTaken_phase (a : Value) (k : BitVec 7) : (s.payloadTaken a k).phase = s.phase := rfl
@[simp] theorem payloadTaken_opsel (a : Value) (k : BitVec 7) : (s.payloadTaken a k).opsel = s.opsel := rfl
@[simp] theorem payloadTaken_rem (a : Value) (k : BitVec 7) : (s.payloadTaken a k).rem = s.rem := rfl
@[simp] theorem payloadTaken_acc (a : Value) (k : BitVec 7) : (s.payloadTaken a k).acc = .holds a := rfl
@[simp] theorem payloadTaken_shift (a : Value) (k : BitVec 7) : (s.payloadTaken a k).shift = .holds (k + 7) := rfl
@[simp] theorem payloadTaken_cnt (a : Value) (k : BitVec 7) : (s.payloadTaken a k).cnt = s.cnt := rfl
@[simp] theorem payloadTaken_status (a : Value) (k : BitVec 7) : (s.payloadTaken a k).status = s.status := rfl
@[simp] theorem payloadTaken_valOut (a : Value) (k : BitVec 7) : (s.payloadTaken a k).valOut = s.valOut := rfl
@[simp] theorem payloadTaken_count (a : Value) (k : BitVec 7) : (s.payloadTaken a k).count = s.count := rfl
@[simp] theorem payloadTaken_source (a : Value) (k : BitVec 7) : (s.payloadTaken a k).source = s.source := rfl
@[simp] theorem payloadTaken_sink (a : Value) (k : BitVec 7) : (s.payloadTaken a k).sink = s.sink := rfl
@[simp] theorem payloadTaken_inputs (a : Value) (k : BitVec 7) : (s.payloadTaken a k).inputs = s.inputs := rfl

@[simp] theorem lastPayloadTaken_phase (a : Value) : (s.lastPayloadTaken a).phase = s.phase := rfl
@[simp] theorem lastPayloadTaken_opsel (a : Value) : (s.lastPayloadTaken a).opsel = s.opsel := rfl
@[simp] theorem lastPayloadTaken_rem (a : Value) : (s.lastPayloadTaken a).rem = s.rem := rfl
@[simp] theorem lastPayloadTaken_acc (a : Value) : (s.lastPayloadTaken a).acc = .holds a := rfl
@[simp] theorem lastPayloadTaken_shift (a : Value) : (s.lastPayloadTaken a).shift = s.shift := rfl
@[simp] theorem lastPayloadTaken_cnt (a : Value) : (s.lastPayloadTaken a).cnt = s.cnt := rfl
@[simp] theorem lastPayloadTaken_status (a : Value) : (s.lastPayloadTaken a).status = s.status := rfl
@[simp] theorem lastPayloadTaken_valOut (a : Value) : (s.lastPayloadTaken a).valOut = s.valOut := rfl
@[simp] theorem lastPayloadTaken_count (a : Value) : (s.lastPayloadTaken a).count = s.count := rfl
@[simp] theorem lastPayloadTaken_source (a : Value) : (s.lastPayloadTaken a).source = s.source := rfl
@[simp] theorem lastPayloadTaken_sink (a : Value) : (s.lastPayloadTaken a).sink = s.sink := rfl
@[simp] theorem lastPayloadTaken_inputs (a : Value) : (s.lastPayloadTaken a).inputs = s.inputs := rfl

@[simp] theorem coreReset_phase : (s.coreReset).phase = .idle := rfl
@[simp] theorem coreReset_opsel : (s.coreReset).opsel = .noValue := rfl
@[simp] theorem coreReset_rem : (s.coreReset).rem = .noValue := rfl
@[simp] theorem coreReset_acc : (s.coreReset).acc = .noValue := rfl
@[simp] theorem coreReset_shift : (s.coreReset).shift = .noValue := rfl
@[simp] theorem coreReset_cnt : (s.coreReset).cnt = .noValue := rfl
@[simp] theorem coreReset_status : (s.coreReset).status = .noValue := rfl
@[simp] theorem coreReset_valOut : (s.coreReset).valOut = .noValue := rfl
@[simp] theorem coreReset_count : (s.coreReset).count = .noValue := rfl
@[simp] theorem coreReset_source : (s.coreReset).source = s.source := rfl
@[simp] theorem coreReset_sink : (s.coreReset).sink = s.sink := rfl
@[simp] theorem coreReset_inputs : (s.coreReset).inputs = s.inputs := rfl

@[simp] theorem presentSink_phase : (s.presentSink).phase = s.phase := rfl
@[simp] theorem presentSink_opsel : (s.presentSink).opsel = s.opsel := rfl
@[simp] theorem presentSink_rem : (s.presentSink).rem = s.rem := rfl
@[simp] theorem presentSink_acc : (s.presentSink).acc = s.acc := rfl
@[simp] theorem presentSink_shift : (s.presentSink).shift = s.shift := rfl
@[simp] theorem presentSink_cnt : (s.presentSink).cnt = s.cnt := rfl
@[simp] theorem presentSink_status : (s.presentSink).status = s.status := rfl
@[simp] theorem presentSink_valOut : (s.presentSink).valOut = s.valOut := rfl
@[simp] theorem presentSink_count : (s.presentSink).count = s.count := rfl
@[simp] theorem presentSink_source : (s.presentSink).source = { link := .exclusive, behaviour := .reference s.sink.data 0 } := rfl
@[simp] theorem presentSink_sink : (s.presentSink).sink = s.sink := rfl
@[simp] theorem presentSink_inputs : (s.presentSink).inputs = s.inputs := rfl

@[simp] theorem offering_phase (w : CommandWord) : (s.offering w).phase = .idle := rfl
@[simp] theorem offering_opsel (w : CommandWord) : (s.offering w).opsel = s.opsel := rfl
@[simp] theorem offering_rem (w : CommandWord) : (s.offering w).rem = s.rem := rfl
@[simp] theorem offering_acc (w : CommandWord) : (s.offering w).acc = s.acc := rfl
@[simp] theorem offering_shift (w : CommandWord) : (s.offering w).shift = s.shift := rfl
@[simp] theorem offering_cnt (w : CommandWord) : (s.offering w).cnt = s.cnt := rfl
@[simp] theorem offering_status (w : CommandWord) : (s.offering w).status = s.status := rfl
@[simp] theorem offering_valOut (w : CommandWord) : (s.offering w).valOut = s.valOut := rfl
@[simp] theorem offering_count (w : CommandWord) : (s.offering w).count = s.count := rfl
@[simp] theorem offering_source (w : CommandWord) : (s.offering w).source = s.source := rfl
@[simp] theorem offering_sink (w : CommandWord) : (s.offering w).sink = s.sink := rfl
@[simp] theorem offering_inputs (w : CommandWord) : (s.offering w).inputs = .command w :: s.inputs := rfl

/-- The machine's reset state is what a reset leaves of itself. -/
theorem coreReset_reset : State.reset.coreReset = State.reset := rfl

end Sys2Proof.Machine.State
end

