-- ==== Sys2Proof/Laws/Channels.lean ====
section
/-! SUPPORT. Everything one access to a channel can do, and that the reference channels stay well-formed. -/

namespace Sys2Proof.Machine

@[simp] theorem obstacle_exclusive : Link.exclusive.obstacle = none := rfl
@[simp] theorem obstacle_shared : Link.shared.obstacle = some .channelShared := rfl
@[simp] theorem obstacle_absent : Link.absent.obstacle = some .channelAbsent := rfl

/-- Only a channel of this core's own has no obstacle. -/
theorem obstacle_none {l : Link} (h : l.obstacle = none) : l = .exclusive := by
  cases l <;> simp_all [Link.obstacle]

/-- An answer of the source leaves its connection and its well-formedness. -/
theorem Source.answer_keeps {src src' : Source} {a : SrcAnswer} (h : src.answer = some (a, src')) :
    src'.link = src.link ∧ (src.wf = true → src'.wf = true) := by
  obtain ⟨link, behaviour⟩ := src
  rcases behaviour with ⟨bytes, pos⟩ | answers
  · simp only [Source.answer] at h
    split at h
    · rename_i b hb
      have := (List.getElem?_eq_some_iff.1 hb).1
      simp only [Option.some.injEq, Prod.mk.injEq] at h
      obtain ⟨_, rfl⟩ := h
      simp [Source.wf]; omega
    · simp only [Option.some.injEq, Prod.mk.injEq] at h
      obtain ⟨_, rfl⟩ := h
      simp
  · cases answers <;> simp only [Source.answer, Option.some.injEq, Prod.mk.injEq, reduceCtorEq] at h
    obtain ⟨_, rfl⟩ := h
    simp [Source.wf]

/-- An answer of the sink leaves its connection and its well-formedness. -/
theorem Sink.answer_keeps {snk snk' : Sink} {b : Byte} {a : SnkAnswer} (h : snk.answer b = some (a, snk')) :
    snk'.link = snk.link ∧ (snk.wf = true → snk'.wf = true) := by
  obtain ⟨link, behaviour, data⟩ := snk
  rcases behaviour with ⟨_ | cap⟩ | ⟨_ | ⟨_ | _, answers⟩⟩ <;>
    simp only [Sink.answer, Option.some.injEq, Prod.mk.injEq, reduceCtorEq] at h
  · obtain ⟨_, rfl⟩ := h; simp [Sink.wf]
  · split at h <;> simp only [Option.some.injEq, Prod.mk.injEq] at h <;> obtain ⟨_, rfl⟩ := h
    · simp [Sink.wf]; omega
    · simp
  · obtain ⟨_, rfl⟩ := h; simp [Sink.wf]
  · obtain ⟨_, rfl⟩ := h; simp [Sink.wf]

/-- Everything an access to the source can do. -/
theorem memRead_cases (s : State) :
    (∃ r, s.source.link.obstacle = some r ∧ memRead s = .refused r) ∨
    (s.source.link = .exclusive ∧ s.source.answer = none ∧ memRead s = .waiting) ∨
    (∃ a src, s.source.link = .exclusive ∧ s.source.answer = some (a, src) ∧
      memRead s = .answered a { s with source := src }) := by
  unfold memRead
  cases hl : s.source.link.obstacle with
  | some r => exact .inl ⟨r, rfl, rfl⟩
  | none =>
    have hx := obstacle_none hl
    cases ha : s.source.answer with
    | none => exact .inr (.inl ⟨hx, rfl, rfl⟩)
    | some p => exact .inr (.inr ⟨p.1, p.2, hx, rfl, rfl⟩)

/-- Everything an access to the sink can do. -/
theorem memWrite_cases (b : Byte) (s : State) :
    (∃ r, s.sink.link.obstacle = some r ∧ memWrite b s = .refused r) ∨
    (s.sink.link = .exclusive ∧ s.sink.answer b = none ∧ memWrite b s = .waiting) ∨
    (∃ a snk, s.sink.link = .exclusive ∧ s.sink.answer b = some (a, snk) ∧
      memWrite b s = .answered a { s with sink := snk }) := by
  unfold memWrite
  cases hl : s.sink.link.obstacle with
  | some r => exact .inl ⟨r, rfl, rfl⟩
  | none =>
    have hx := obstacle_none hl
    cases ha : s.sink.answer b with
    | none => exact .inr (.inl ⟨hx, rfl, rfl⟩)
    | some p => exact .inr (.inr ⟨p.1, p.2, hx, rfl, rfl⟩)

/-- A source of this core's own that answers. -/
theorem memRead_answered {s : State} {a : SrcAnswer} {src : Source} (hl : s.source.link = .exclusive)
    (ha : s.source.answer = some (a, src)) : memRead s = .answered a { s with source := src } := by
  simp [memRead, hl, ha]

/-- A sink of this core's own that answers. -/
theorem memWrite_answered {s : State} {b : Byte} {a : SnkAnswer} {snk : Sink} (hl : s.sink.link = .exclusive)
    (ha : s.sink.answer b = some (a, snk)) : memWrite b s = .answered a { s with sink := snk } := by
  simp [memWrite, hl, ha]

end Sys2Proof.Machine
end

