-- ==== Sys2Proof/Laws/Decode.lean ====
section
/-! SUPPORT. Small laws of the command word and of the opcode table. -/

namespace Sys2Proof

@[simp] theorem opField_append (op : BitVec 2) (v : Value) : opField (op ++ v) = op := by
  exact BitVec.extractLsb'_append_eq_left

@[simp] theorem valInField_append (op : BitVec 2) (v : Value) : valInField (op ++ v) = v := by
  exact BitVec.extractLsb'_append_eq_right

/-- A word is its two fields (R50). -/
theorem op_append_valIn (w : CommandWord) : opField w ++ valInField w = w := by
  apply BitVec.eq_of_getLsbD_eq
  intro i hi
  simp only [opField, valInField, BitVec.getLsbD_append, BitVec.getLsbD_extractLsb']
  split
  · simp_all
  · have h : i - 64 < 2 := by omega
    have e : 64 + (i - 64) = i := by omega
    simp [h, e]

@[simp] theorem selected_encu : selected 0b00#2 = .encu 0 := by decide
@[simp] theorem selected_decu : selected 0b01#2 = .decu := by decide
@[simp] theorem selected_encs : selected 0b10#2 = .encs 0 := by decide
@[simp] theorem selected_decs : selected 0b11#2 = .decs := by decide

/-- A row's mask keeps the `OP` field and drops `VAL_IN`. -/
theorem append_and_mask (op : BitVec 2) (v : Value) :
    ((op ++ v : CommandWord) &&& 0x30000000000000000#66) = op ++ 0#64 := by
  have h : (0x30000000000000000#66 : CommandWord) = 3#2 ++ 0#64 := by decide
  have a : op &&& 3#2 = op := by revert op; decide
  rw [h, BitVec.and_append, a, BitVec.and_zero]

end Sys2Proof
end

