-- ==== Sys2Proof/Laws/Ops.lean ====
section
/-! SUPPORT. For each shared operation, everything it can do when it answers a next state. -/

namespace Sys2Proof.Machine

@[simp] theorem readReg_holds {w : Nat} (n : RegName) (v : BitVec w) (use : BitVec w → StepResult) :
    readReg n (.holds v) use = use v := rfl

@[simp] theorem readReg_noValue {w : Nat} (n : RegName) (use : BitVec w → StepResult) :
    readReg n (.noValue : Reg w) use = .fault (.noValue n) := rfl

/-- A register that was read held a value. -/
theorem readReg_next {w : Nat} {n : RegName} {r : Reg w} {use : BitVec w → StepResult} {t : State}
    (h : readReg n r use = .next t) : ∃ v, r = .holds v ∧ use v = .next t := by
  cases r with
  | noValue => simp at h
  | holds v => exact ⟨v, rfl, h⟩

/-- Accepting a command that is not refused. -/
theorem accept_next {l : Link} {op : BitVec 2} {s t : State} (h : accept l op s = .next t) :
    l = .exclusive ∧ t = s.launch op := by
  unfold accept at h
  split at h
  · simp at h
  · rename_i hl
    simp only [Host.Outcome.next.injEq] at h
    exact ⟨obstacle_none hl, h.symm⟩

/-- A move of the core on behalf of an operation: its issue step, a beat of it, or nothing. -/
theorem operate_next {op : BitVec 2} {issue beat : State → StepResult} {s t : State}
    (h : operate op issue beat s = .next t) :
    (s.phase = .idle ∧ issue s = .next t) ∨
    (s.phase = .run ∧ s.opsel = .holds op ∧ beat s = .next t) ∨
    (s.phase = .run ∧ (∃ o, s.opsel = .holds o ∧ o ≠ op) ∧ t = s) := by
  unfold operate at h
  split at h
  · rename_i hp; exact .inl ⟨hp, h⟩
  · rename_i hp
    obtain ⟨o, ho, hb⟩ := readReg_next h
    split at hb
    · rename_i e; exact .inr (.inl ⟨hp, e ▸ ho, hb⟩)
    · rename_i e
      simp only [Host.Outcome.next.injEq] at hb
      exact .inr (.inr ⟨hp, ⟨o, ho, e⟩, hb.symm⟩)

/-- Everything a beat of an encoder can do: wait, end with `WRITE_ERROR`, go on, or complete. -/
theorem encoderBeat_next {byteOf : Value → Byte} {isLast : Value → Bool} {restOf : Value → Value} {s t : State}
    (h : encoderBeat byteOf isLast restOf s = .next t) :
    ∃ r, s.rem = .holds r ∧ s.sink.link = .exclusive ∧
      ((s.sink.answer (byteOf r) = none ∧ t = s) ∨
       ∃ c snk, s.cnt = .holds c ∧
        ((s.sink.answer (byteOf r) = some (.nak, snk) ∧ t = { s with sink := snk }.raise .writeError c) ∨
         (s.sink.answer (byteOf r) = some (.ack, snk) ∧ isLast r = false ∧
           t = { s with sink := snk }.byteWritten c (restOf r)) ∨
         (s.sink.answer (byteOf r) = some (.ack, snk) ∧ isLast r = true ∧
           t = ({ s with sink := snk }.byteWritten c (restOf r)).complete .noValue (c + 1)))) := by
  unfold encoderBeat at h
  obtain ⟨r, hr, h⟩ := readReg_next h
  refine ⟨r, hr, ?_⟩
  rcases memWrite_cases (byteOf r) s with ⟨f, hl, hm⟩ | ⟨hl, ha, hm⟩ | ⟨a, snk, hl, ha, hm⟩
  · simp [hm] at h
  · simp only [hm, Host.Outcome.next.injEq] at h
    exact ⟨hl, .inl ⟨ha, h.symm⟩⟩
  · refine ⟨hl, .inr ?_⟩
    cases a with
    | nak =>
      simp only [hm] at h
      obtain ⟨c, hc, h⟩ := readReg_next h
      simp only [Host.Outcome.next.injEq] at h
      exact ⟨c, snk, hc, .inl ⟨ha, h.symm⟩⟩
    | ack =>
      simp only [hm] at h
      obtain ⟨c, hc, h⟩ := readReg_next h
      refine ⟨c, snk, hc, .inr ?_⟩
      split at h <;> rename_i e <;> simp only [Host.Outcome.next.injEq] at h
      · exact .inr ⟨ha, e, h.symm⟩
      · exact .inl ⟨ha, by simpa using e, h.symm⟩

/-- Everything taking a payload can do: go on, or complete. -/
theorem takePayload_next {finish : Value → Nat → Byte → Value} {b : Byte} {a : Value} {k : BitVec 7} {c : BitVec 4}
    {s t : State} (h : takePayload finish b a k c s = .next t) :
    k.toNat ≤ 63 ∧
      ((contFlag b = true ∧ t = (s.byteRead c).payloadTaken (a ||| payloadAt (low7 b) k.toNat) k) ∨
       (contFlag b = false ∧ ∃ v, v = finish (a ||| payloadAt (low7 b) k.toNat) (k.toNat + 7) b ∧
         t = ((s.byteRead c).lastPayloadTaken v).complete (.holds v) (c + 1))) := by
  unfold takePayload at h
  split at h
  · simp at h
  rename_i hs
  refine ⟨by simpa using hs, ?_⟩
  split at h <;> rename_i g <;> simp only [Host.Outcome.next.injEq] at h
  · exact .inl ⟨g, h.symm⟩
  · exact .inr ⟨by simpa using g, _, rfl, h.symm⟩

/-- Everything a beat of a decoder can do: wait, end with `END_OF_INPUT`, end with `OVERFLOW`, or take a payload. -/
theorem decoderBeat_next {legalTail : Payload → Bool} {finish : Value → Nat → Byte → Value} {s t : State}
    (h : decoderBeat legalTail finish s = .next t) :
    s.source.link = .exclusive ∧
      ((s.source.answer = none ∧ t = s) ∨
       ∃ c src, s.cnt = .holds c ∧
        ((s.source.answer = some (.endOfInput, src) ∧ t = { s with source := src }.raise .endOfInput c) ∨
         ∃ b k, s.source.answer = some (.byte b, src) ∧ s.shift = .holds k ∧
          ((k.toNat = 63 ∧ tailRejected legalTail b = true ∧
             t = ({ s with source := src }.byteRead c).overflow (c + 1)) ∨
           ((k.toNat = 63 → tailRejected legalTail b = false) ∧
             ∃ a, s.acc = .holds a ∧ takePayload finish b a k c { s with source := src } = .next t)))) := by
  unfold decoderBeat at h
  rcases memRead_cases s with ⟨f, hl, hm⟩ | ⟨hl, hans, hm⟩ | ⟨ans, src, hl, hans, hm⟩
  · simp [hm] at h
  · simp only [hm, Host.Outcome.next.injEq] at h
    exact ⟨hl, .inl ⟨hans, h.symm⟩⟩
  · refine ⟨hl, .inr ?_⟩
    cases ans with
    | endOfInput =>
      simp only [hm] at h
      obtain ⟨c, hc, h⟩ := readReg_next h
      simp only [Host.Outcome.next.injEq] at h
      exact ⟨c, src, hc, .inl ⟨hans, h.symm⟩⟩
    | byte b =>
      simp only [hm] at h
      obtain ⟨c, hc, h⟩ := readReg_next h
      obtain ⟨k, hk, h⟩ := readReg_next h
      refine ⟨c, src, hc, .inr ⟨b, k, hans, hk, ?_⟩⟩
      split at h <;> rename_i e
      · simp only [Host.Outcome.next.injEq] at h
        exact .inl ⟨e.1, e.2, h.symm⟩
      · obtain ⟨a, ha, h⟩ := readReg_next h
        exact .inr ⟨fun hk63 => by simpa [hk63] using e, a, ha, h⟩

end Sys2Proof.Machine
end

