-- ==== Sys2Proof/Laws/Exec.lean ====
section
/-! SUPPORT. What `exec` is for each instruction in each phase: its issue step in `IDLE`, its beat in `RUN`. -/

namespace Sys2Proof.Machine

theorem exec_encu_idle {s : State} (v : Value) (h : s.phase = .idle) :
    exec (.encu v) s = accept s.sink.link 0b00#2 (s.issueEncoder v) := by
  simp [exec, execEncu, operate, h]

theorem exec_decu_idle {s : State} (h : s.phase = .idle) :
    exec .decu s = accept s.source.link 0b01#2 s.issueDecoder := by
  simp [exec, execDecu, operate, h]

theorem exec_encs_idle {s : State} (v : Value) (h : s.phase = .idle) :
    exec (.encs v) s = accept s.sink.link 0b10#2 (s.issueEncoder v) := by
  simp [exec, execEncs, operate, h]

theorem exec_decs_idle {s : State} (h : s.phase = .idle) :
    exec .decs s = accept s.source.link 0b11#2 s.issueDecoder := by
  simp [exec, execDecs, operate, h]

theorem exec_encu_run {s : State} (v : Value) (h : s.phase = .run) (o : s.opsel = .holds 0b00#2) :
    exec (.encu v) s = encuBeat s := by
  simp [exec, execEncu, operate, h, o]

theorem exec_decu_run {s : State} (h : s.phase = .run) (o : s.opsel = .holds 0b01#2) : exec .decu s = decuBeat s := by
  simp [exec, execDecu, operate, h, o]

theorem exec_encs_run {s : State} (v : Value) (h : s.phase = .run) (o : s.opsel = .holds 0b10#2) :
    exec (.encs v) s = encsBeat s := by
  simp [exec, execEncs, operate, h, o]

theorem exec_decs_run {s : State} (h : s.phase = .run) (o : s.opsel = .holds 0b11#2) : exec .decs s = decsBeat s := by
  simp [exec, execDecs, operate, h, o]

/-- In `RUN` an operation's operand is read by nothing (R13): the operation that `OPSEL` selects is the running one. -/
theorem exec_selected {s : State} (i : Instr) (h : s.phase = .run) : exec (selected i.op) s = exec i s := by
  cases i <;> simp [Instr.op, exec, execEncu, execEncs, operate, h]

end Sys2Proof.Machine
end

