-- ==== Sys2Proof/Laws/PerInstr.lean ====
section
/-! SUPPORT. Family `Row`: the command word of an operation is accepted by exactly one row of the opcode table, its own
(spec/opcode_table.json). -/

namespace Sys2Proof.Laws.Row

/-- The rows that accept the word of `i` are exactly the row of its mnemonic. -/
def Statement (i : Instr) : Prop :=
  (opcodeTable.filter fun r => r.accepts (encode i)).map (fun r => r.mnemonic) = [i.mnemonic]

/-- The rows that accept a word depend on its `OP` field alone. -/
theorem accepting_rows (op : BitVec 2) (v : Value) :
    (opcodeTable.filter fun r => r.accepts (op ++ v)) = opcodeTable.filter fun r => r.accepts (op ++ 0#64) := by
  have h : ∀ r ∈ opcodeTable, r.accepts (op ++ v) = r.accepts (op ++ 0#64) := by
    intro r hr
    have hm : r.mask = 0x30000000000000000#66 := by revert r; decide
    simp only [OpcodeRow.accepts, hm, append_and_mask]
  exact List.filter_congr h

theorem encu (v : Value) : Statement (.encu v) := by
  unfold Statement encode; rw [accepting_rows]; simp only [Instr.op, Instr.mnemonic]; decide

theorem decu : Statement .decu := by
  unfold Statement; decide

theorem encs (v : Value) : Statement (.encs v) := by
  unfold Statement encode; rw [accepting_rows]; simp only [Instr.op, Instr.mnemonic]; decide

theorem decs : Statement .decs := by
  unfold Statement; decide

end Sys2Proof.Laws.Row
end

