-- ==== Sys2Proof/Tests/Slice0.lean ====
section
/-! SUPPORT. The model's own tests: expected results are the spec's words, examples and vectors. The witnesses show, for
every statement with hypotheses, states and operands that meet them. -/

namespace Sys2Proof.Machine.Tests

/-- The next state, where there is one. -/
def nextState (r : StepResult) : Option State :=
  match r with
  | .next s => some s
  | .fault _ => none
  | .refused _ => none

/-- A running encoder with `REM` and `CNT`, on the reference sink with this capacity. -/
def encoding (op : BitVec 2) (rem : Value) (cnt : BitVec 4) (cap : Option Nat) : State :=
  { State.reset with
    phase := .run, opsel := .holds op, rem := .holds rem, cnt := .holds cnt,
    sink := { link := .exclusive, behaviour := .reference cap, data := [] } }

/-- A running decoder with `ACC`, `SHIFT` and `CNT`, on the reference source over these bytes. -/
def decoding (op : BitVec 2) (acc : Value) (shift : BitVec 7) (cnt : BitVec 4) (bs : List Byte) : State :=
  { State.reset with
    phase := .run, opsel := .holds op, acc := .holds acc, shift := .holds shift, cnt := .holds cnt,
    source := { link := .exclusive, behaviour := .reference bs 0 } }

/-- The core in `IDLE` with the reference source over these bytes and the reference sink with this capacity. -/
def ready (bs : List Byte) (cap : Option Nat) : State :=
  { State.reset with
    source := { link := .exclusive, behaviour := .reference bs 0 },
    sink := { link := .exclusive, behaviour := .reference cap, data := [] } }

/-! ### Written commands (R65): an ill-formed term for each check of `Asm.wellFormed` -/

theorem test_encu_too_large_refused : (Asm.encu (2 ^ 64)).assemble = none := by decide
theorem test_encu_negative_refused : (Asm.encu (-1)).assemble = none := by decide
theorem test_encs_too_large_refused : (Asm.encs (2 ^ 63)).assemble = none := by decide
theorem test_encs_too_small_refused : (Asm.encs (-2 ^ 63 - 1)).assemble = none := by decide
theorem test_encs_least_accepted : (Asm.encs (-2 ^ 63)).assemble = some (.encs 0x8000000000000000) := by decide
theorem test_decuV_is_decu : Asm.decuV.assemble = some .decu ∧ Asm.decuV.countIgnored = true := by decide

/-- R65 and P2: `ENCS -129` and a hexadecimal `ENCU`. -/
theorem test_read_commands :
    Asm.read ['E', 'N', 'C', 'S', ' ', '-', '1', '2', '9'] = some (.encs (-129)) ∧
    Asm.read ['E', 'N', 'C', 'U', ' ', '0', 'x', '3', 'f'] = some (.encu 63) := by decide

/-! ### Command words written out from R50 and R51: `OP` in bits 65:64, `VAL_IN` below -/

/-- `OP = 00`, `VAL_IN = 130`. -/
theorem test_decode_encu :
    decode 0b000000000000000000000000000000000000000000000000000000000010000010#66 = .encu 130 := by decide
/-- `OP = 01`, `VAL_IN` ignored. -/
theorem test_decode_decu :
    decode 0b010000000000000000000000000000000000000000000000000000000000000101#66 = .decu := by decide
/-- `OP = 10`, `VAL_IN` the pattern of -2. -/
theorem test_decode_encs :
    decode 0b101111111111111111111111111111111111111111111111111111111111111110#66 = .encs (BitVec.ofInt 64 (-2)) := by
  decide
/-- `OP = 11`, `VAL_IN` ignored. -/
theorem test_decode_decs :
    decode 0b111000000000000000000000000000000000000000000000000000000000000000#66 = .decs := by decide

theorem test_decode_table_words :
    decodeTableWord 72 0x00000000000000000 = some (.encu 0) ∧ decodeTableWord 72 0x10000000000000000 = some .decu ∧
    decodeTableWord 72 0x20000000000000000 = some (.encs 0) ∧ decodeTableWord 72 0x30000000000000000 = some .decs ∧
    decodeTableWord 72 0x40000000000000000 = none := by decide

/-! ### One step each -/

/-- The first step after reset takes the word at the port: `DECS` is launched. -/
theorem test_first_step_launches :
    (nextState (step (State.reset.withFetchWord 72 0x30000000000000000))).map (fun t => (t.phase, t.opsel, t.cnt)) =
      some (.run, .holds 0b11#2, .holds 0) := by decide

/-- R70, worked example: `ENCU 12857`, beat 1. -/
theorem test_encu_beat :
    (nextState (exec (.encu 0) (encoding 0b00#2 0x3239 0 none))).map (fun t => (t.sink.data, t.rem, t.cnt, t.phase)) =
      some ([0xb9], .holds 0x64, .holds 1, .run) := by decide
/-- V30: a sink that refuses the first offer of `ENCU 128`. -/
theorem test_encu_refused :
    (nextState (exec (.encu 0) (encoding 0b00#2 128 0 (some 0)))).map (fun t => (t.sink.data, t.status, t.count, t.phase)) =
      some ([], .holds 3, .holds 0, .idle) := by decide
/-- R90, worked example: `ENCS -129`, beat 1 (an arithmetic shift). -/
theorem test_encs_beat :
    (nextState (exec (.encs 0) (encoding 0b10#2 0xFFFFFFFFFFFFFF7F 0 none))).map (fun t => (t.sink.data, t.rem, t.phase)) =
      some ([0xff], .holds 0xFFFFFFFFFFFFFFFE, .run) := by decide
/-- V82: `ENCS -1` ends with its first byte, which leaves `REM` alone. -/
theorem test_encs_last :
    (nextState (exec (.encs 0) (encoding 0b10#2 0xFFFFFFFFFFFFFFFF 0 none))).map
      (fun t => (t.sink.data, t.rem, t.status, t.count, t.valOut)) =
      some ([0x7f], .holds 0xFFFFFFFFFFFFFFFF, .holds 0, .holds 1, .noValue) := by decide
/-- R80, worked example: beat 2 of `[0x82, 0x01, 0x01]`. -/
theorem test_decu_last :
    (nextState (exec .decu (decoding 0b01#2 0x02 7 1 [0x01, 0x01]))).map
      (fun t => (t.valOut, t.count, t.status, t.source.unread)) =
      some (.holds 130, .holds 2, .holds 0, [0x01]) := by decide
/-- V65: the 10th byte `0x81` is an overflow, and the byte after it stays. -/
theorem test_decu_tenth_flag_set :
    (nextState (exec .decu (decoding 0b01#2 0 63 9 [0x81, 0x00]))).map
      (fun t => (t.valOut, t.count, t.status, t.source.unread)) =
      some (.noValue, .holds 10, .holds 2, [0x00]) := by decide
/-- R100, worked example: beat 2 of `[0x81, 0x7f]`. -/
theorem test_decs_last :
    (nextState (exec .decs (decoding 0b11#2 0x01 7 1 [0x7f]))).map (fun t => (t.valOut, t.count)) =
      some (.holds 0xFFFFFFFFFFFFFF81, .holds 2) := by decide
/-- V123: the negative tail sets bit 63 alone. -/
theorem test_decs_negative_tail :
    (nextState (exec .decs (decoding 0b11#2 0 63 9 [0x7f]))).map (fun t => (t.valOut, t.status)) =
      some (.holds 0x8000000000000000, .holds 0) := by decide

/-- R80: on `END` only `CNT` is read, and an overflow reads no `ACC`. -/
theorem test_decu_reads_in_order :
    (nextState (exec .decu { decoding 0b01#2 0 0 3 [] with acc := .noValue, shift := .noValue })).map
      (fun t => (t.status, t.count)) = some (.holds 1, .holds 3) ∧
    (nextState (exec .decu { decoding 0b01#2 0 63 9 [0x02] with acc := .noValue })).map (fun t => (t.status, t.count)) =
      some (.holds 2, .holds 10) := by decide

/-- V144 and V146. -/
theorem test_low7 : low7 0xb9 = 0x39 ∧ low7Value 0xFFFFFFFFFFFFFF7F = 0x7f := by decide

/-- V10 and V84 in closed form. -/
theorem test_closed_forms :
    Wire.encodeUnsigned 16384 = [0x80, 0x80, 0x01] ∧ Wire.encodeSigned 64 = [0xc0, 0x00] := by decide

/-! ### Witnesses: states and operands that meet the hypotheses of the statements -/

theorem witness_DecodeCommandsIgnoreValIn :
    opField 0x10000000000000000#66 = opField 0x1FFFFFFFFFFFFFFFF#66 ∧
      (opField 0x10000000000000000#66).getLsbD 0 = true := by decide

theorem witness_CommandWordsRoundTrip : (Instr.encs 0x8000000000000000).wellFormed = true := by decide

theorem witness_WrittenOperandIsPlacedAsItsPattern :
    ((0 : Int) ≤ 2 ^ 64 - 1 ∧ (2 ^ 64 - 1 : Int) < 2 ^ 64) ∧ ¬ ((0 : Int) ≤ 2 ^ 64 ∧ (2 ^ 64 : Int) < 2 ^ 64) ∧
    ((-2 ^ 63 : Int) ≤ -2 ^ 63 ∧ (-2 ^ 63 : Int) < 2 ^ 63) ∧ ¬ ((-2 ^ 63 : Int) ≤ 2 ^ 63 ∧ (2 ^ 63 : Int) < 2 ^ 63) := by
  decide

theorem witness_StepRunsTheDecodedCommand :
    (State.reset.offering 0x30000000000000000).phase = .idle ∧
    (State.reset.offering 0x30000000000000000).inputs = .command 0x30000000000000000 :: [] ∧
    decodeCommand (0x30000000000000000 : CommandWord).toNat = .ok .decs ∧ Instr.decs.wellFormed = true :=
  ⟨rfl, rfl, rfl, rfl⟩

theorem witness_StepInRunIsABeatOfTheSelectedOperation :
    (encoding 0b10#2 64 0 none).phase = .run ∧ (encoding 0b10#2 64 0 none).opsel = .holds (Instr.encs 5).op := by decide

theorem witness_BusyCommandHasNoEffect :
    (encoding 0b10#2 64 0 none).phase = .run ∧ (0b10#2 : BitVec 2) ≠ Instr.decu.op ∧
    (nextState (step (encoding 0b10#2 0 0 none))).map (fun t => t.phase) = some .idle ∧
    (encoding 0b10#2 0 0 none).nextIsReset = false := by decide

theorem witness_IdleCoreWithoutCommandDoesNothing : State.reset.phase = .idle := by decide

/-- A silent sink beside a source that answers, and a silent source beside a sink that accepts. -/
theorem witness_UnansweredRequestWaits :
    (({ encoding 0b00#2 5 0 none with sink := { link := .exclusive, behaviour := .script [], data := [] } } : State).opsel =
        .holds (Instr.encu 0).op ∧
      ({ encoding 0b00#2 5 0 none with sink := { link := .exclusive, behaviour := .script [], data := [] } } : State).rem =
        .holds 5) ∧
    (({ decoding 0b11#2 0 0 0 [] with source := { link := .exclusive, behaviour := .script [] } } : State).phase = .run ∧
      ({ decoding 0b11#2 0 0 0 [] with source := { link := .exclusive, behaviour := .script [] } } : State).opsel =
        .holds Instr.decs.op) := by decide

/-- Refused, accepted with more to come, accepted as the last byte (`0x80` is offered for 128, `0x7f` for 127). -/
theorem witness_EncuIssueAndBeat :
    State.reset.sink.link = .exclusive ∧ State.reset.phase = .idle ∧
    ((encoding 0b00#2 128 0 (some 0)).sink.answer (BitVec.ofBool ((128 : Value) >>> 7 != 0) ++ (128 : Value).extractLsb' 0 7) =
      some (.nak, (encoding 0b00#2 128 0 (some 0)).sink)) ∧
    (((encoding 0b00#2 128 0 none).sink.answer
      (BitVec.ofBool ((128 : Value) >>> 7 != 0) ++ (128 : Value).extractLsb' 0 7)).map Prod.fst = some .ack ∧
      (128 : Value) >>> 7 ≠ 0) ∧
    (((encoding 0b00#2 127 0 none).sink.answer
      (BitVec.ofBool ((127 : Value) >>> 7 != 0) ++ (127 : Value).extractLsb' 0 7)).map Prod.fst = some .ack ∧
      (127 : Value) >>> 7 = 0) := by decide

/-- 63 is the last one-byte value, 64 the first that is not. -/
theorem witness_EncsIssueAndBeat :
    State.reset.sink.link = .exclusive ∧ State.reset.phase = .idle ∧
    true = ((63 : Value).sshiftRight 6 == 0 || (63 : Value).sshiftRight 6 == 0xFFFFFFFFFFFFFFFF) ∧
    false = ((64 : Value).sshiftRight 6 == 0 || (64 : Value).sshiftRight 6 == 0xFFFFFFFFFFFFFFFF) ∧
    ((encoding 0b10#2 64 0 (some 0)).sink.answer (BitVec.ofBool (!false) ++ (64 : Value).extractLsb' 0 7)).map Prod.fst =
      some .nak ∧
    ((encoding 0b10#2 64 0 none).sink.answer (BitVec.ofBool (!false) ++ (64 : Value).extractLsb' 0 7)).map Prod.fst =
      some .ack ∧
    ((encoding 0b10#2 63 0 none).sink.answer (BitVec.ofBool (!true) ++ (63 : Value).extractLsb' 0 7)).map Prod.fst =
      some .ack := by decide

/-- `END`; an illegal 10th byte `0x02`; a byte that goes on at `SHIFT = 56`; the legal 10th byte `0x01`. -/
theorem witness_DecuIssueAndBeat :
    State.reset.source.link = .exclusive ∧ State.reset.phase = .idle ∧ (63 : BitVec 7).toNat ≤ 63 ∧
    (decoding 0b01#2 0 63 9 []).source.answer = some (.endOfInput, (decoding 0b01#2 0 63 9 []).source) ∧
    ((decoding 0b01#2 0 63 9 [0x02]).source.answer.map Prod.fst = some (.byte 0x02) ∧
      (0x02 : Byte) ≠ 0x00 ∧ (0x02 : Byte) ≠ 0x01) ∧
    ((decoding 0b01#2 0 56 8 [0x80]).source.answer.map Prod.fst = some (.byte 0x80) ∧ (56 : BitVec 7) ≠ 63 ∧
      (0x80 : Byte).getLsbD 7 = true) ∧
    ((decoding 0b01#2 0 63 9 [0x01]).source.answer.map Prod.fst = some (.byte 0x01) ∧ (0x01 : Byte).getLsbD 7 = false) := by
  decide

/-- As for `DECU`, with `0x01` illegal and `0x7f` legal in the 10th byte. -/
theorem witness_DecsIssueAndBeat :
    State.reset.source.link = .exclusive ∧ State.reset.phase = .idle ∧ (63 : BitVec 7).toNat ≤ 63 ∧
    (decoding 0b11#2 0 63 9 []).source.answer = some (.endOfInput, (decoding 0b11#2 0 63 9 []).source) ∧
    ((decoding 0b11#2 0 63 9 [0x01]).source.answer.map Prod.fst = some (.byte 0x01) ∧
      (0x01 : Byte) ≠ 0x00 ∧ (0x01 : Byte) ≠ 0x7f) ∧
    ((decoding 0b11#2 0 56 8 [0x80]).source.answer.map Prod.fst = some (.byte 0x80) ∧ (56 : BitVec 7) ≠ 63 ∧
      (0x80 : Byte).getLsbD 7 = true) ∧
    ((decoding 0b11#2 0 63 9 [0x7f]).source.answer.map Prod.fst = some (.byte 0x7f) ∧ (0x7f : Byte).getLsbD 7 = false) := by
  decide

/-- Positions 9 and 10, both decoders, a byte and `END`. -/
theorem witness_ByteTableOfTheDecoders :
    ((decoding 0b01#2 5 56 8 [0x7f]).Consistent ∧ (decoding 0b01#2 5 56 8 [0x7f]).phase = .run ∧
      (decoding 0b01#2 5 56 8 [0x7f]).source.link = .exclusive ∧
      (decoding 0b01#2 5 56 8 [0x7f]).source.answer.map Prod.fst = some (.byte 0x7f)) ∧
    (decoding 0b01#2 5 63 9 [0x02]).Consistent ∧ (decoding 0b11#2 5 63 9 [0x7f]).Consistent ∧
    ((decoding 0b11#2 5 63 9 []).Consistent ∧
      (decoding 0b11#2 5 63 9 []).source.answer = some (.endOfInput, (decoding 0b11#2 5 63 9 []).source)) := by decide

/-- No register with a value but `OPSEL`; an encoder without `CNT`; decoders without `CNT`, `SHIFT` and `ACC`, the last at the
legal 10th byte `0x7f` of `DECS`; and a `SHIFT` of 64. -/
theorem witness_BeatOnUnwrittenRegistersFaults :
    ({ State.reset with phase := .run } : State).opsel = .noValue ∧
    ({ State.reset with phase := .run, opsel := .holds (Instr.encu 0).op } : State).rem = .noValue ∧
    (({ encoding 0b10#2 64 0 none with cnt := .noValue } : State).rem = .holds 64 ∧
      (({ encoding 0b10#2 64 0 none with cnt := .noValue } : State).sink.answer
        (if (Instr.encs 0).op = 0b00#2 then encuByte 64 else encsByte 64)).isSome = true) ∧
    (({ decoding 0b11#2 0 0 0 [] with cnt := .noValue } : State).source.answer.isSome = true ∧
      ({ decoding 0b11#2 0 0 0 [] with cnt := .noValue } : State).cnt = .noValue) ∧
    ((decoding 0b11#2 0 63 9 [0x7f]).source.answer.map Prod.fst = some (.byte 0x7f) ∧ (63 : BitVec 7).toNat = 63 ∧
      ({ decoding 0b11#2 0 63 9 [0x7f] with acc := .noValue } : State).acc = .noValue) ∧
    ((decoding 0b11#2 0 64 9 [0x00]).shift = .holds 64 ∧ 63 < (64 : BitVec 7).toNat) := by decide

theorem witness_EachOperationHasOneChannel :
    (nextState (exec (.encu 1) State.reset)).isSome = true ∧ (nextState (exec (.encs 1) State.reset)).isSome = true ∧
    (nextState (exec .decu State.reset)).isSome = true ∧ (nextState (exec .decs State.reset)).isSome = true := by decide

/-- In `IDLE`; in `RUN` with an accepted and with a refused byte; with another operation selected. -/
theorem witness_EncoderFrame :
    (nextState (exec (.encs 1) State.reset)).isSome = true ∧
    ((nextState (exec (.encs 1) (encoding 0b10#2 64 0 none))).isSome = true ∧
      ((encoding 0b10#2 64 0 none).sink.answer (encsByte 64)).map Prod.fst = some .ack) ∧
    ((nextState (exec (.encs 1) (encoding 0b10#2 64 0 (some 0)))).isSome = true ∧
      ((encoding 0b10#2 64 0 (some 0)).sink.answer (encsByte 64)).map Prod.fst ≠ some .ack) ∧
    (nextState (exec (.encs 1) (encoding 0b00#2 64 0 none))).isSome = true := by decide

/-- In `IDLE`; in `RUN` with a byte and with `END`; with another operation selected. -/
theorem witness_DecoderFrame :
    (nextState (exec .decs State.reset)).isSome = true ∧
    (nextState (exec .decs (decoding 0b11#2 0 0 0 [0x80]))).isSome = true ∧
    (nextState (exec .decs (decoding 0b11#2 0 0 0 []))).isSome = true ∧
    (nextState (exec .decs (decoding 0b01#2 0 0 0 [0x80]))).isSome = true := by decide

theorem witness_AccumulatorBitsAreOnlySet :
    (decoding 0b11#2 5 7 1 [0x7f]).phase = .run ∧ (decoding 0b11#2 5 7 1 [0x7f]).acc = .holds 5 ∧
    (nextState (exec .decs (decoding 0b11#2 5 7 1 [0x7f]))).isSome = true := by decide

/-- A beat that goes on and one that ends. -/
theorem witness_ResponseIsWrittenAtTheEnd :
    (decoding 0b01#2 5 7 1 [0x80]).Consistent ∧
    (nextState (exec .decu (decoding 0b01#2 5 7 1 [0x80]))).map (fun t => t.phase) = some .run ∧
    (decoding 0b01#2 5 7 1 [0x00]).Consistent ∧
    (nextState (exec .decu (decoding 0b01#2 5 7 1 [0x00]))).map (fun t => t.phase) = some .idle := by decide

theorem witness_StatusCodesAndWhoRaisesThem :
    (encoding 0b00#2 1 0 none).phase = .run ∧
    (nextState (exec (.encu 1) (encoding 0b00#2 1 0 none))).map (fun t => t.phase) = some .idle ∧
    (nextState (exec .decs (decoding 0b11#2 0 0 0 []))).map (fun t => t.phase) = some .idle := by decide

/-- A refused byte, `END`, and an illegal 10th byte. -/
theorem witness_RaisingAnError :
    (encoding 0b00#2 1 0 (some 0)).phase = .run ∧ (decoding 0b01#2 0 63 9 [0x02]).phase = .run ∧
    (nextState (exec (.encu 1) (encoding 0b00#2 1 0 (some 0)))).map (fun t => (t.phase, t.status)) =
      some (.idle, .holds 3) ∧
    (nextState (exec .decu (decoding 0b01#2 0 63 9 []))).map (fun t => (t.phase, t.status)) = some (.idle, .holds 1) ∧
    (nextState (exec .decu (decoding 0b01#2 0 63 9 [0x02]))).map (fun t => (t.phase, t.status)) =
      some (.idle, .holds 2) := by decide

theorem witness_CountIsTheBytesMoved :
    State.reset.phase = .idle ∧ (nextState (perform (.encu 1) State.reset)).map (fun t => t.phase) = some .idle ∧
    (nextState (perform .decu (ready [0x05, 0xaa] none))).map (fun t => t.phase) = some .idle := by decide

theorem witness_OkMeansAWholeSequence :
    (nextState (perform (.encu 1) State.reset)).map (fun t => (t.phase, t.status)) = some (.idle, .holds 0) ∧
    (nextState (perform (.encs 1) State.reset)).map (fun t => (t.phase, t.status)) = some (.idle, .holds 0) ∧
    (nextState (perform .decu (ready [0x05] none))).map (fun t => (t.phase, t.status)) = some (.idle, .holds 0) ∧
    (nextState (perform .decs (ready [0x05] none))).map (fun t => (t.phase, t.status)) = some (.idle, .holds 0) := by decide

/-- V30 and V31: the first and the second offer of `ENCU 128` refused. -/
theorem witness_RefusedWriteLeavesThePrefix :
    (ready [] (some 0)).phase = .idle ∧ (ready [] (some 0)).sink.link = .exclusive ∧
    0 < (Wire.encodeUnsigned 128).length ∧ (ready [] (some 0)).sink.refusesAfter 0 = true ∧
    1 < (Wire.encodeUnsigned 128).length ∧ (ready [] (some 1)).sink.refusesAfter 1 = true := by decide

/-- V67 and V69: no byte, and nine bytes. -/
theorem witness_TruncatedStreamIsEndOfInput :
    (ready [] none).phase = .idle ∧ (ready [] none).source.link = .exclusive ∧
    (ready [] none).source.endsAfter [] = true ∧
    (List.replicate 9 (0xff : Byte)).all contFlag = true ∧ (List.replicate 9 (0xff : Byte)).length ≤ 9 ∧
    (ready (List.replicate 9 0xff) none).source.endsAfter (List.replicate 9 0xff) = true := by decide

/-- V61 and V126. -/
theorem witness_IllegalTenthByteOverflows :
    (List.replicate 9 (0x80 : Byte)).all contFlag = true ∧ (List.replicate 9 (0x80 : Byte)).length = 9 ∧
    ((0x02 : Byte) ≠ 0x00 ∧ (0x02 : Byte) ≠ 0x01 ∧
      (ready (List.replicate 9 0x80 ++ [0x02]) none).source.yields (List.replicate 9 0x80 ++ [0x02]) = true) ∧
    ((0x01 : Byte) ≠ 0x00 ∧ (0x01 : Byte) ≠ 0x7f ∧
      (ready (List.replicate 9 0x80 ++ [0x01]) none).source.yields (List.replicate 9 0x80 ++ [0x01]) = true) := by decide

/-- 2^64-1 takes ten bytes. -/
theorem witness_EncuAppendsTheClosedForm :
    (ready [] (some 10)).phase = .idle ∧ (ready [] (some 10)).sink.link = .exclusive ∧
    (ready [] (some 10)).sink.accepts (Wire.unsignedLength 0xFFFFFFFFFFFFFFFF) = true ∧
    9 < Wire.unsignedLength 0xFFFFFFFFFFFFFFFF := by decide

/-- -2^63 takes ten bytes. -/
theorem witness_EncsAppendsTheClosedForm :
    (ready [] (some 10)).phase = .idle ∧ (ready [] (some 10)).sink.link = .exclusive ∧
    (ready [] (some 10)).sink.accepts (Wire.signedLength 0x8000000000000000) = true ∧
    9 < Wire.signedLength 0x8000000000000000 := by decide

/-- V50 and V59: one byte, and ten. -/
theorem witness_DecuRebuildsTheUnsignedValue :
    Wire.legalUnsigned [0x00] = true ∧ (ready [0x00] none).source.yields [0x00] = true ∧
    Wire.legalUnsigned (List.replicate 9 0xff ++ [0x01]) = true ∧
    (ready (List.replicate 9 0xff ++ [0x01]) none).source.yields (List.replicate 9 0xff ++ [0x01]) = true ∧
    9 < (List.replicate 9 (0xff : Byte) ++ [0x01]).length := by decide

/-- V112 and V123: one byte, and ten. -/
theorem witness_DecsRebuildsTheSignedValue :
    Wire.legalSigned [0x40] = true ∧ (ready [0x40] none).source.yields [0x40] = true ∧
    Wire.legalSigned (List.replicate 9 0x80 ++ [0x7f]) = true ∧
    (ready (List.replicate 9 0x80 ++ [0x7f]) none).source.yields (List.replicate 9 0x80 ++ [0x7f]) = true ∧
    9 < (List.replicate 9 (0x80 : Byte) ++ [0x7f]).length := by decide

theorem witness_UnsignedRoundTrip :
    State.reset.phase = .idle ∧ State.reset.sink = { link := .exclusive, behaviour := .reference none, data := [] } := by
  decide

theorem witness_SignedRoundTrip :
    State.reset.phase = .idle ∧ State.reset.sink = { link := .exclusive, behaviour := .reference none, data := [] } := by
  decide

/-- `DECU` on the script `[END]` beside an absent sink; an encoder and a decoder whose own channel answers ten requests. -/
theorem witness_BeatsOfAnOperation :
    (nextState (perform .decu
      { State.reset with
        source := { link := .exclusive, behaviour := .script [.endOfInput] },
        sink := { link := .absent, behaviour := .script [], data := [] } })).map (fun t => (t.phase, t.status, t.count)) =
      some (.idle, .holds 1, .holds 0) ∧
    (State.reset.phase = .idle ∧ State.reset.sink.link = .exclusive ∧ State.reset.sink.answersNext 10 = true) ∧
    (State.reset.source.link = .exclusive ∧
      Source.answersNext { link := .exclusive, behaviour := .script (List.replicate 10 (.byte 0x80)) } 10 = true) := by
  decide

theorem witness_RunningStepsPerformTheOperation : (ready [0x7f] none).phase = .idle := by decide

theorem witness_SequencesAreSelfDelimiting :
    Wire.isSequence [0x82, 0x01] = true ∧ ([0x82, 0x01] : List Byte) ++ [0x01] = [0x82, 0x01] ++ [0x01] := by decide

/-- The largest one-byte value, the largest and the smallest nine-byte values, the smallest ten-byte value. -/
theorem witness_EncodedLengthThresholds :
    (Wire.encodeUnsigned 127).length = 1 ∧ (Wire.encodeUnsigned 0x7FFFFFFFFFFFFFFF).length = 9 ∧
    (Wire.encodeUnsigned 0x100000000000000).length = 9 ∧ (Wire.encodeUnsigned 0x8000000000000000).length = 10 ∧
    (Wire.encodeSigned 0xC000000000000000).length = 9 ∧ (Wire.encodeSigned 0x4000000000000000).length = 10 := by decide

theorem witness_UnsignedSequenceIsMinimal :
    2 ≤ (Wire.encodeUnsigned 128).length ∧ (Wire.encodeUnsigned 128).getLast? = some 0x01 ∧
    Wire.legalUnsigned [0x80, 0x81, 0x00] = true ∧ Wire.unsignedValue [0x80, 0x81, 0x00] = 128 := by decide

theorem witness_SignedSequenceIsMinimal :
    0 + 1 < Wire.signedLength 64 ∧ Wire.legalSigned [0xc0, 0x80, 0x00] = true ∧
    Wire.signedValue [0xc0, 0x80, 0x00] = 64 := by decide

theorem witness_SignedTailIsTheSign :
    (Wire.encodeSigned 0x4000000000000000).length = 10 ∧ (Wire.encodeSigned 0x8000000000000000).length = 10 := by decide

/-- 63 and 64: bit 6 of the top group clear, and set. -/
theorem witness_NonNegativeValuesSignedAndUnsigned :
    (0 ≤ (63 : Value).toInt ∧ (Wire.encodeUnsigned 63).getLast? = some 0x3f ∧ (0x3f : Byte).getLsbD 6 = false) ∧
    (0 ≤ (64 : Value).toInt ∧ (Wire.encodeUnsigned 64).getLast? = some 0x40 ∧ (0x40 : Byte).getLsbD 6 = true) := by decide

theorem witness_PaddingKeepsTheValue :
    Wire.isSequence (List.replicate 8 0x80 ++ [0x40]) = true ∧ (List.replicate 8 (0x80 : Byte) ++ [0x40]).length < 10 ∧
    (List.replicate 8 (0x80 : Byte) ++ [0x40]).getLast? = some 0x40 := by decide

theorem witness_DecodersAgreeWithoutASign :
    (ready [0x80, 0x3f] none).phase = .idle ∧ (ready [0x80, 0x3f] none).source.link = .exclusive ∧
    Wire.isSequence [0x80, 0x3f] = true ∧ ([0x80, 0x3f] : List Byte).length ≤ 9 ∧
    ([0x80, 0x3f] : List Byte).getLast?.any signFlag = false ∧
    (ready [0x80, 0x3f] none).source.yields [0x80, 0x3f] = true := by decide

theorem witness_SourceYieldsEachByteOnce :
    (ready [0x05] none).source.answer.map Prod.fst = some (.byte 0x05) ∧
    (ready [] none).source.answer.map Prod.fst = some .endOfInput := by decide

theorem witness_SinkAppendsOrKeeps :
    ((ready [] (some 1)).sink.answer 0x05).map Prod.fst = some .ack ∧
    ((ready [] (some 0)).sink.answer 0x05).map Prod.fst = some .nak := by decide

theorem witness_ReferenceChannelsAnswer : 0 < ([0x05] : List Byte).length ∧ ([] : List Byte).length ≤ 0 := by decide

/-- In `IDLE` and in `RUN`, shared and absent. -/
theorem witness_SharedChannelIsRefused :
    ({ State.reset with sink := { link := .shared, behaviour := .reference none, data := [] } } : State).phase = .idle ∧
    (({ encoding 0b00#2 5 0 none with sink := { link := .absent, behaviour := .reference none, data := [] } } : State).rem =
        .holds 5 ∧
      ({ encoding 0b00#2 5 0 none with sink := { link := .absent, behaviour := .reference none, data := [] } } : State).opsel =
        .holds (Instr.encu 0).op) ∧
    ({ decoding 0b11#2 0 0 0 [] with source := { link := .absent, behaviour := .script [] } } : State).opsel =
      .holds Instr.decs.op := by decide

theorem witness_ShiftPrimitivesComputeTheirArithmetic : (63 : Nat) ≤ 63 := by decide

theorem witness_ResetLeavesNoValues :
    ({ encoding 0b00#2 1 0 none with inputs := [.reset] } : State).inputs = .reset :: [] := by decide

theorem witness_ResponseReads :
    (State.reset.phase = .idle ∧ State.reset.valOut = .noValue ∧ State.reset.status = .noValue ∧
      State.reset.count = .noValue) ∧
    ((State.reset.complete (.holds 5) 1).phase = .idle ∧ (State.reset.complete (.holds 5) 1).valOut = .holds 5 ∧
      (State.reset.complete (.holds 5) 1).status = .holds 0 ∧ (State.reset.complete (.holds 5) 1).count = .holds 1) ∧
    (encoding 0b00#2 1 0 none).phase = .run := by decide

/-- A wait keeps the core in `IDLE`, a command puts it in `RUN`. -/
theorem witness_ResponseStaysUntilTheNextCommand :
    (nextState (step { State.reset with inputs := [.wait] })).map (fun t => t.phase) = some .idle ∧
    (nextState (step (State.reset.offering 0x20000000000000005))).map (fun t => t.phase) = some .run ∧
    (State.reset.offering 0x20000000000000005).nextIsReset = false := by decide

/-- In `IDLE` with a command at the port, and in the 10th beat of a decoder. -/
theorem witness_EveryStepKeepsConsistency :
    (State.reset.offering 0x20000000000000005).Consistent ∧
    (nextState (step (State.reset.offering 0x20000000000000005))).isSome = true ∧
    (decoding 0b11#2 5 63 9 [0x7f]).Consistent ∧ (nextState (step (decoding 0b11#2 5 63 9 [0x7f]))).isSome = true := by
  decide

theorem witness_ConsistentStepsNeverStop :
    (decoding 0b11#2 5 63 9 [0x7f]).Consistent ∧ (decoding 0b11#2 5 63 9 [0x7f]).Launchable ∧
    (decoding 0b11#2 5 63 9 [0x7f]).nextIsRead = false := by decide

/-- Two running decoders that differ in `REM` and in the response an earlier operation left. -/
theorem witness_EarlierOperationsLeaveNoTrace :
    Alike (decoding 0b01#2 5 7 1 [0x01])
      { decoding 0b01#2 5 7 1 [0x01] with rem := .holds 9, status := .holds 3, count := .holds 4 } ∧
    (decoding 0b01#2 5 7 1 [0x01]).nextIsRead = false ∧
    (nextState (step (decoding 0b01#2 5 7 1 [0x01]))).map (fun t => t.phase) = some .idle := by
  refine ⟨⟨rfl, rfl, rfl, rfl, fun _ => ⟨rfl, rfl, fun op h => ?_⟩⟩, by decide, by decide⟩
  simp only [decoding, Reg.holds.injEq] at h
  subst h
  exact ⟨rfl, rfl⟩

end Sys2Proof.Machine.Tests
end

section
/-! PROOF. The 64-bit shift primitives of 00_scope.md R6 as arithmetic, each lemma for every shift amount, and how two
arithmetic shifts compose (44_low_bits_helper.md R113). -/

namespace Sys2Proof.Machine

theorem lsl64_toNat (v : Value) (k : Nat) : (lsl64 v k).toNat = v.toNat * 2 ^ k % 2 ^ 64 := by
  rw [lsl64, BitVec.toNat_shiftLeft, Nat.shiftLeft_eq]

theorem lsr64_toNat (v : Value) (k : Nat) : (lsr64 v k).toNat = v.toNat / 2 ^ k := by
  rw [lsr64, BitVec.toNat_ushiftRight, Nat.shiftRight_eq_div_pow]

theorem asr64_toInt (v : Value) (k : Nat) : (asr64 v k).toInt = v.toInt / 2 ^ k := by
  rw [asr64, BitVec.toInt_sshiftRight, Int.shiftRight_eq_div_pow, Nat.cast_pow, Nat.cast_ofNat]

theorem asr64_asr64 (v : Value) (j k : Nat) : asr64 (asr64 v j) k = asr64 v (j + k) :=
  (BitVec.sshiftRight_add (x := v)).symm

/-- Settles O52: the law of R113 is the composition of two arithmetic shifts at 6 and 1. -/
theorem shiftPrimitivesComputeTheirArithmetic : Obligations.ShiftPrimitivesComputeTheirArithmetic :=
  ⟨fun v k _ => ⟨lsl64_toNat v k, lsr64_toNat v k, asr64_toInt v k⟩, fun v => asr64_asr64 v 6 1⟩

end Sys2Proof.Machine
end

section
/-! PROOF. What an answer of a channel does to its bytes (20_memory.md R31, R32). -/

namespace Sys2Proof.Machine

/-- An answer of the sink: `ACK` appends the byte offered, `NAK` leaves the contents (R32). -/
theorem Sink.answer_data {snk snk' : Sink} {b : Byte} {a : SnkAnswer} (h : snk.answer b = some (a, snk')) :
    (a = .ack ∧ snk'.data = snk.data ++ [b]) ∨ (a = .nak ∧ snk'.data = snk.data) := by
  unfold Sink.answer at h
  split at h
  case h_2 => split at h <;> cases h <;> simp
  all_goals cases h <;> simp

/-- An answer of the source: a byte was the first unread one and is gone, `END` removes none (R31). -/
theorem Source.answer_unread {src src' : Source} {a : SrcAnswer} (h : src.answer = some (a, src')) :
    (∃ b, a = .byte b ∧ src.unread = b :: src'.unread) ∨ (a = .endOfInput ∧ src'.unread = src.unread) := by
  obtain ⟨link, ⟨bytes, pos⟩ | ⟨_ | ⟨answer, answers⟩⟩⟩ := src
  · simp only [Source.answer] at h
    split at h
    · next b hb =>
      cases h
      obtain ⟨hlt, rfl⟩ := List.getElem?_eq_some_iff.1 hb
      exact .inl ⟨_, rfl, List.drop_eq_getElem_cons hlt⟩
    · cases h
      exact .inr ⟨rfl, rfl⟩
  · simp [Source.answer] at h
  · cases h
    cases a with
    | byte b => exact .inl ⟨b, rfl, rfl⟩
    | endOfInput => exact .inr ⟨rfl, rfl⟩

end Sys2Proof.Machine
end

section
/-! PROOF. The four in-beat conditions of 10_state.md R20 as numbers and masks. -/

namespace Sys2Proof.Machine

theorem moreFlag_iff (r : Value) : moreFlag r = true ↔ 128 ≤ r.toNat := by
  rw [moreFlag, bne_iff_ne, ne_eq, ← BitVec.toNat_inj, lsr64_toNat]
  simp

theorem doneFlag_iff (r : Value) : doneFlag r = true ↔ -64 ≤ r.toInt ∧ r.toInt ≤ 63 := by
  have zero : (0 : Value).toInt = 0 := by decide
  have ones : ones64.toInt = -1 := by decide
  simp only [doneFlag, Bool.or_eq_true, beq_iff_eq, ← BitVec.toInt_inj, asr64_toInt, zero, ones]
  omega

/-- A bit of a byte is set where the mask of that bit alone keeps something. -/
theorem getLsbD_iff_and_twoPow (b : Byte) {k : Nat} (hk : k < 8) :
    b.getLsbD k = true ↔ b &&& BitVec.twoPow 8 k ≠ 0 := by
  have hz : BitVec.twoPow 8 k ≠ 0#8 := fun e => by simpa [hk] using congrArg (·.getLsbD k) e
  rw [BitVec.and_twoPow]
  cases b.getLsbD k <;> simp [hz]

theorem contFlag_iff (b : Byte) : contFlag b = true ↔ b &&& Config.CONT ≠ 0 :=
  getLsbD_iff_and_twoPow b (k := 7) (by decide)

theorem signFlag_iff (b : Byte) : signFlag b = true ↔ b &&& Config.SIGN ≠ 0 :=
  getLsbD_iff_and_twoPow b (k := 6) (by decide)

/-- Settles O53, condition by condition. -/
theorem inBeatConditions : Obligations.InBeatConditions :=
  ⟨moreFlag_iff, doneFlag_iff, contFlag_iff, signFlag_iff⟩

end Sys2Proof.Machine
end

section
/-! PROOF. A step of the machine, move by move (10_state.md R12, R13, R17, R22, R23; 70_reset_and_hazards.md R140, R141). -/

namespace Sys2Proof.Machine

theorem step_of_no_move {s : State} (h : s.inputs = []) : step s = advance s := by
  simp [step, stepState, h]

theorem step_of_awaitIdle_run {s : State} {rest : List Input} (h : s.inputs = .awaitIdle :: rest)
    (hp : s.phase = .run) : step s = advance s := by
  simp [step, stepState, h, hp]

theorem step_of_move {s : State} {m : Input} {rest : List Input} (h : s.inputs = m :: rest)
    (hm : m = .awaitIdle → s.phase = .idle) : step s = takeInput m { s with inputs := rest } := by
  have hm' : ¬ (m = .awaitIdle ∧ s.phase = .run) := fun ⟨e, hr⟩ => by simp [hm e] at hr
  simp [step, stepState, h, hm']

theorem step_no_move (s : State) : step { s with inputs := [] } = advance { s with inputs := [] } :=
  step_of_no_move rfl

theorem step_awaitIdle_run {s : State} (rest : List Input) (hp : s.phase = .run) :
    step { s with inputs := .awaitIdle :: rest } = advance { s with inputs := .awaitIdle :: rest } :=
  step_of_awaitIdle_run rfl hp

theorem step_move {s : State} (m : Input) (rest : List Input) (hm : m = .awaitIdle → s.phase = .idle) :
    step { s with inputs := m :: rest } = takeInput m { s with inputs := rest } :=
  step_of_move rfl hm

/-- A step is the core's own advance or the next move of the outside world, taken off the list. -/
theorem step_cases (s : State) :
    step s = advance s ∨ ∃ m rest, s.inputs = m :: rest ∧ step s = takeInput m { s with inputs := rest } := by
  unfold step stepState
  split
  · exact .inl rfl
  · next m rest _ =>
    split
    · exact .inl rfl
    · exact .inr ⟨m, rest, ‹_›, rfl⟩

theorem advance_idle {s : State} (h : s.phase = .idle) : advance s = .next s := by
  simp [advance, h]

theorem selected_op (op : BitVec 2) : (selected op).op = op := by
  revert op; decide

/-- In `RUN` the core's own advance is a move on behalf of the operation in `OPSEL`, whatever operand it is named with. -/
theorem advance_run {s : State} {i : Instr} (h : s.phase = .run) (o : s.opsel = .holds i.op) : advance s = exec i s := by
  simp [advance, h, o, exec_selected i h]

/-- The core's own advance in `RUN` read `OPSEL`. -/
theorem advance_run_next {s t : State} (h : s.phase = .run) (ht : advance s = .next t) :
    ∃ i : Instr, s.opsel = .holds i.op ∧ exec i s = .next t := by
  simp only [advance, h] at ht
  obtain ⟨op, ho, ht⟩ := readReg_next ht
  exact ⟨selected op, by rw [selected_op]; exact ho, ht⟩

/-- Settles O9: each of the three steps is the core's own advance. -/
theorem stepInRunIsABeatOfTheSelectedOperation : Obligations.StepInRunIsABeatOfTheSelectedOperation := by
  intro s rest i hp ho
  rw [step_no_move, step_awaitIdle_run rest hp, step_move .wait rest nofun]
  exact ⟨advance_run hp ho, advance_run hp ho, advance_run hp ho⟩

/-- Settles O11: in `IDLE` the core's own advance is no move. -/
theorem idleCoreWithoutCommandDoesNothing : Obligations.IdleCoreWithoutCommandDoesNothing := by
  intro s rest hp
  rw [step_no_move, step_move .wait rest nofun, step_move .awaitIdle rest fun _ => hp]
  exact ⟨advance_idle hp, advance_idle hp, rfl⟩

/-- Settles O54: a reset is taken in either phase. -/
theorem resetLeavesNoValues : Obligations.ResetLeavesNoValues := by
  refine ⟨by decide, fun s rest h => ⟨_, step_of_move h nofun, ?_⟩⟩
  simp

section Reads

variable {s : State} {r : ResponseReg} {rest : List Input}

theorem step_read_of_none (h : s.readFault r = none) :
    step { s with inputs := .read r :: rest } = .next { s with inputs := rest } := by
  have h' : ({ s with inputs := rest } : State).readFault r = none := h
  rw [step_move (.read r) rest nofun, takeInput, h']

theorem step_read_of_some {f : Fault} (h : s.readFault r = some f) :
    step { s with inputs := .read r :: rest } = .fault f := by
  have h' : ({ s with inputs := rest } : State).readFault r = some f := h
  rw [step_move (.read r) rest nofun, takeInput, h']

theorem readFault_run (r : ResponseReg) (h : s.phase = .run) : s.readFault r = some (.staleResponse r) := by
  cases r <;> simp [State.readFault, State.readStatus, State.readValOut, State.readCount, readContent, h]

@[simp] theorem readContent_idle_noValue {w : Nat} (r : ResponseReg) :
    readContent .idle r (.noValue : Reg w) = .error (.noValue r.regName) := rfl

@[simp] theorem readContent_idle_holds {w : Nat} (r : ResponseReg) (v : BitVec w) :
    readContent .idle r (.holds v) = .ok v := rfl

end Reads

/-- Settles O55, register by register: a read looks at the phase first and at the register's content then. -/
theorem responseReads : Obligations.ResponseReads := by
  intro s rest
  refine ⟨fun hp hv => step_read_of_some ?_, fun hp hv => step_read_of_some ?_, fun hp hv => step_read_of_some ?_,
    fun v hp hv => ?_, fun v hp hv => ?_, fun v hp hv => ?_, fun r hp => step_read_of_some (readFault_run r hp)⟩
  · simp [State.readFault, State.readValOut, ResponseReg.regName, hp, hv]
  · simp [State.readFault, State.readStatus, ResponseReg.regName, hp, hv]
  · simp [State.readFault, State.readCount, ResponseReg.regName, hp, hv]
  · have hr : s.readValOut = .ok v := by simp [State.readValOut, hp, hv]
    exact ⟨hr, step_read_of_none (by simp [State.readFault, hr])⟩
  · have hr : s.readStatus = .ok v := by simp [State.readStatus, hp, hv]
    exact ⟨hr, step_read_of_none (by simp [State.readFault, hr])⟩
  · have hr : s.readCount = .ok v := by simp [State.readCount, hp, hv]
    exact ⟨hr, step_read_of_none (by simp [State.readFault, hr])⟩

end Sys2Proof.Machine
end

section
/-! PROOF. The moves of the two encoders and of the two decoders, one constructor per way a beat can go (10_state.md R25;
40_unsigned_encoder.md R70, 41_unsigned_decoder.md R80, 42_signed_encoder.md R90, 43_signed_decoder.md R100). -/

namespace Sys2Proof.Machine

/-- The byte that encoder `i` offers for the value in `REM`. -/
def encoderByte (i : Instr) (rem : Value) : Byte := if i.op = 0b00#2 then encuByte rem else encsByte rem

/-- Whether encoder `i` ends with the byte for the value in `REM`. -/
def encoderLast (i : Instr) (rem : Value) : Bool := if i.op = 0b00#2 then !moreFlag rem else doneFlag rem

/-- What encoder `i` leaves in `REM` once its byte was accepted. -/
def encoderRest (i : Instr) (rem : Value) : Value := if i.op = 0b00#2 then encuRest rem else encsRest rem

/-- The payloads that decoder `i` accepts in the 10th byte. -/
def decoderTail (i : Instr) (p : Payload) : Bool := if i.op = 0b01#2 then decuTail p else decsTail p

/-- What decoder `i` makes of the accumulator with its last byte. -/
def decoderFinish (i : Instr) (acc : Value) (T : Nat) (b : Byte) : Value :=
  if i.op = 0b01#2 then decuFinish acc T b else decsFinish acc T b

/-- `ACC` with the payload of `b` at `SHIFT`. -/
def withPayload (a : Value) (k : BitVec 7) (b : Byte) : Value := a ||| payloadAt (low7 b) k.toNat

/-- The value decoder `i` delivers with its last byte `b`. -/
def decodedValue (i : Instr) (a : Value) (k : BitVec 7) (b : Byte) : Value :=
  decoderFinish i (withPayload a k b) (k.toNat + Config.G) b

/-- The ways a beat of encoder `i` can go on a sink of this core's own. -/
inductive EncoderMove (i : Instr) (s : State) : State → Prop where
  | waits {r : Value} (hr : s.rem = .holds r) (ha : s.sink.answer (encoderByte i r) = none) : EncoderMove i s s
  | refused {r : Value} {c : BitVec 4} {snk : Sink} (hr : s.rem = .holds r) (hc : s.cnt = .holds c)
      (ha : s.sink.answer (encoderByte i r) = some (.nak, snk)) :
      EncoderMove i s ({ s with sink := snk }.raise .writeError c)
  | goesOn {r : Value} {c : BitVec 4} {snk : Sink} (hr : s.rem = .holds r) (hc : s.cnt = .holds c)
      (ha : s.sink.answer (encoderByte i r) = some (.ack, snk)) (hlast : encoderLast i r = false) :
      EncoderMove i s ({ s with sink := snk }.byteWritten c (encoderRest i r))
  | completes {r : Value} {c : BitVec 4} {snk : Sink} (hr : s.rem = .holds r) (hc : s.cnt = .holds c)
      (ha : s.sink.answer (encoderByte i r) = some (.ack, snk)) (hlast : encoderLast i r = true) :
      EncoderMove i s (({ s with sink := snk }.byteWritten c (encoderRest i r)).complete .noValue (c + 1))

/-- The ways a beat of decoder `i` can go on a source of this core's own. -/
inductive DecoderMove (i : Instr) (s : State) : State → Prop where
  | waits (ha : s.source.answer = none) : DecoderMove i s s
  | ends {c : BitVec 4} {src : Source} (hc : s.cnt = .holds c) (ha : s.source.answer = some (.endOfInput, src)) :
      DecoderMove i s ({ s with source := src }.raise .endOfInput c)
  | overflows {c : BitVec 4} {src : Source} {b : Byte} {k : BitVec 7} (hc : s.cnt = .holds c)
      (ha : s.source.answer = some (.byte b, src)) (hk : s.shift = .holds k) (hk63 : k.toNat = 63)
      (htail : tailRejected (decoderTail i) b = true) :
      DecoderMove i s (({ s with source := src }.byteRead c).overflow (c + 1))
  | goesOn {c : BitVec 4} {src : Source} {b : Byte} {k : BitVec 7} {a : Value} (hc : s.cnt = .holds c)
      (ha : s.source.answer = some (.byte b, src)) (hk : s.shift = .holds k) (hacc : s.acc = .holds a)
      (hle : k.toNat ≤ 63) (htail : k.toNat = 63 → tailRejected (decoderTail i) b = false)
      (hcont : contFlag b = true) :
      DecoderMove i s (({ s with source := src }.byteRead c).payloadTaken (withPayload a k b) k)
  | completes {c : BitVec 4} {src : Source} {b : Byte} {k : BitVec 7} {a : Value} (hc : s.cnt = .holds c)
      (ha : s.source.answer = some (.byte b, src)) (hk : s.shift = .holds k) (hacc : s.acc = .holds a)
      (hle : k.toNat ≤ 63) (htail : k.toNat = 63 → tailRejected (decoderTail i) b = false)
      (hcont : contFlag b = false) :
      DecoderMove i s ((({ s with source := src }.byteRead c).lastPayloadTaken (decodedValue i a k b)).complete
        (.holds (decodedValue i a k b)) (c + 1))

theorem encoderBeat_iff {i : Instr} {s t : State} :
    encoderBeat (encoderByte i) (encoderLast i) (encoderRest i) s = .next t ↔
      s.sink.link = .exclusive ∧ EncoderMove i s t := by
  constructor
  · intro h
    obtain ⟨r, hr, hl, ⟨ha, rfl⟩ | ⟨c, snk, hc, ⟨ha, rfl⟩ | ⟨ha, hlast, rfl⟩ | ⟨ha, hlast, rfl⟩⟩⟩ := encoderBeat_next h
    · exact ⟨hl, .waits hr ha⟩
    · exact ⟨hl, .refused hr hc ha⟩
    · exact ⟨hl, .goesOn hr hc ha hlast⟩
    · exact ⟨hl, .completes hr hc ha hlast⟩
  · rintro ⟨hl, hm⟩
    cases hm with
    | waits hr ha => simp [encoderBeat, memWrite, hl, hr, ha]
    | refused hr hc ha => simp [encoderBeat, memWrite_answered hl ha, hr, hc]
    | goesOn hr hc ha hlast => simp [encoderBeat, memWrite_answered hl ha, hr, hc, hlast]
    | completes hr hc ha hlast => simp [encoderBeat, memWrite_answered hl ha, hr, hc, hlast]

/-- A decoder's beat whose byte passes the test of the 10th byte takes its payload. -/
theorem decoderBeat_byte {legalTail : Payload → Bool} {finish : Value → Nat → Byte → Value} {s : State} {b : Byte}
    {src : Source} {c : BitVec 4} {k : BitVec 7} (hl : s.source.link = .exclusive)
    (ha : s.source.answer = some (.byte b, src)) (hc : s.cnt = .holds c) (hk : s.shift = .holds k)
    (htail : k.toNat = 63 → tailRejected legalTail b = false) :
    decoderBeat legalTail finish s =
      readReg .acc s.acc fun a => takePayload finish b a k c { s with source := src } := by
  have hpass : ¬ (k.toNat = Config.LASTSHIFT ∧ tailRejected legalTail b = true) := fun ⟨h63, hrej⟩ => by
    simp [htail h63] at hrej
  simp only [decoderBeat, memRead_answered hl ha, hc, hk, readReg_holds, if_neg hpass]

theorem decoderBeat_iff {i : Instr} {s t : State} :
    decoderBeat (decoderTail i) (decoderFinish i) s = .next t ↔ s.source.link = .exclusive ∧ DecoderMove i s t := by
  constructor
  · intro h
    obtain ⟨hl, ⟨ha, rfl⟩ | ⟨c, src, hc, ⟨ha, rfl⟩ | ⟨b, k, ha, hk, ⟨hk63, htail, rfl⟩ | ⟨htail, a, hacc, hp⟩⟩⟩⟩ :=
      decoderBeat_next h
    · exact ⟨hl, .waits ha⟩
    · exact ⟨hl, .ends hc ha⟩
    · exact ⟨hl, .overflows hc ha hk hk63 htail⟩
    · obtain ⟨hle, ⟨hcont, rfl⟩ | ⟨hcont, v, rfl, rfl⟩⟩ := takePayload_next hp
      · exact ⟨hl, .goesOn hc ha hk hacc hle htail hcont⟩
      · exact ⟨hl, .completes hc ha hk hacc hle htail hcont⟩
  · rintro ⟨hl, hm⟩
    cases hm with
    | waits ha => simp [decoderBeat, memRead, hl, ha]
    | ends hc ha => simp [decoderBeat, memRead_answered hl ha, hc]
    | overflows hc ha hk hk63 htail => simp [decoderBeat, memRead_answered hl ha, hc, hk, hk63, htail]
    | goesOn hc ha hk hacc hle htail hcont =>
      rw [decoderBeat_byte hl ha hc hk htail, hacc, readReg_holds, takePayload, if_neg hle.not_gt, if_pos hcont,
        withPayload]
    | completes hc ha hk hacc hle htail hcont =>
      rw [decoderBeat_byte hl ha hc hk htail, hacc, readReg_holds, takePayload, if_neg hle.not_gt,
        if_neg (by simp [hcont]), decodedValue, withPayload]

/-- An operation is one of the two encoders or one of the two decoders. -/
theorem encoder_or_decoder (i : Instr) : (∃ v, i = .encu v ∨ i = .encs v) ∨ (i = .decu ∨ i = .decs) := by
  cases i <;> simp

theorem accept_iff {l : Link} {op : BitVec 2} {s t : State} :
    accept l op s = .next t ↔ l = .exclusive ∧ t = s.launch op :=
  ⟨accept_next, by rintro ⟨rfl, rfl⟩; simp [accept]⟩

theorem exec_encoder {i : Instr} {v : Value} (hi : i = .encu v ∨ i = .encs v) (s : State) :
    exec i s = operate i.op (fun s => accept s.sink.link i.op (s.issueEncoder v))
      (encoderBeat (encoderByte i) (encoderLast i) (encoderRest i)) s := by
  rcases hi with rfl | rfl <;> rfl

theorem exec_decoder {i : Instr} (hi : i = .decu ∨ i = .decs) (s : State) :
    exec i s = operate i.op (fun s => accept s.source.link i.op s.issueDecoder)
      (decoderBeat (decoderTail i) (decoderFinish i)) s := by
  rcases hi with rfl | rfl <;> rfl

section Encoder

variable {i : Instr} {v : Value} {s t : State} (hi : i = .encu v ∨ i = .encs v)
include hi

theorem exec_encoder_idle_iff (hp : s.phase = .idle) :
    exec i s = .next t ↔ s.sink.link = .exclusive ∧ t = (s.issueEncoder v).launch i.op := by
  simp only [exec_encoder hi, operate, hp, accept_iff]

theorem exec_encoder_beat (hp : s.phase = .run) (ho : s.opsel = .holds i.op) :
    exec i s = encoderBeat (encoderByte i) (encoderLast i) (encoderRest i) s := by
  simp [exec_encoder hi, operate, hp, ho]

theorem exec_encoder_run_iff (hp : s.phase = .run) (ho : s.opsel = .holds i.op) :
    exec i s = .next t ↔ s.sink.link = .exclusive ∧ EncoderMove i s t := by
  rw [exec_encoder_beat hi hp ho, encoderBeat_iff]

/-- What an encoder's `exec` can do when it answers a next state: its issue step, a beat, or nothing. -/
theorem exec_encoder_next (h : exec i s = .next t) :
    (s.phase = .idle ∧ t = (s.issueEncoder v).launch i.op) ∨
    (s.phase = .run ∧ s.opsel = .holds i.op ∧ EncoderMove i s t) ∨
    (s.phase = .run ∧ s.opsel ≠ .holds i.op ∧ t = s) := by
  obtain ⟨hp, -⟩ | ⟨hp, ho, -⟩ | ⟨hp, ⟨o, ho, hne⟩, rfl⟩ := operate_next ((exec_encoder hi s).symm.trans h)
  · exact .inl ⟨hp, ((exec_encoder_idle_iff hi hp).1 h).2⟩
  · exact .inr (.inl ⟨hp, ho, ((exec_encoder_run_iff hi hp ho).1 h).2⟩)
  · exact .inr (.inr ⟨hp, by simp [ho, hne], rfl⟩)

end Encoder

section Decoder

variable {i : Instr} {s t : State} (hi : i = .decu ∨ i = .decs)
include hi

theorem exec_decoder_idle_iff (hp : s.phase = .idle) :
    exec i s = .next t ↔ s.source.link = .exclusive ∧ t = s.issueDecoder.launch i.op := by
  simp only [exec_decoder hi, operate, hp, accept_iff]

theorem exec_decoder_beat (hp : s.phase = .run) (ho : s.opsel = .holds i.op) :
    exec i s = decoderBeat (decoderTail i) (decoderFinish i) s := by
  simp [exec_decoder hi, operate, hp, ho]

theorem exec_decoder_run_iff (hp : s.phase = .run) (ho : s.opsel = .holds i.op) :
    exec i s = .next t ↔ s.source.link = .exclusive ∧ DecoderMove i s t := by
  rw [exec_decoder_beat hi hp ho, decoderBeat_iff]

/-- What a decoder's `exec` can do when it answers a next state: its issue step, a beat, or nothing. -/
theorem exec_decoder_next (h : exec i s = .next t) :
    (s.phase = .idle ∧ t = s.issueDecoder.launch i.op) ∨
    (s.phase = .run ∧ s.opsel = .holds i.op ∧ DecoderMove i s t) ∨
    (s.phase = .run ∧ s.opsel ≠ .holds i.op ∧ t = s) := by
  obtain ⟨hp, -⟩ | ⟨hp, ho, -⟩ | ⟨hp, ⟨o, ho, hne⟩, rfl⟩ := operate_next ((exec_decoder hi s).symm.trans h)
  · exact .inl ⟨hp, ((exec_decoder_idle_iff hi hp).1 h).2⟩
  · exact .inr (.inl ⟨hp, ho, ((exec_decoder_run_iff hi hp ho).1 h).2⟩)
  · exact .inr (.inr ⟨hp, by simp [ho, hne], rfl⟩)

end Decoder

end Sys2Proof.Machine
end

section
/-! PROOF. Where a beat reads a register, and what an operation leaves unchanged (00_scope.md R6; 10_state.md R15, R23,
R25). -/

namespace Sys2Proof.Machine

theorem exec_opsel_noValue {i : Instr} {s : State} (hp : s.phase = .run) (ho : s.opsel = .noValue) :
    exec i s = .fault (.noValue .opsel) := by
  obtain ⟨v, hi⟩ | hi := encoder_or_decoder i
  · simp [exec_encoder hi, operate, hp, ho]
  · simp [exec_decoder hi, operate, hp, ho]

theorem advance_opsel_noValue {s : State} (hp : s.phase = .run) (ho : s.opsel = .noValue) :
    advance s = .fault (.noValue .opsel) := by
  simp [advance, hp, ho]

/-- The bytes that are legal at the 10th position pass its test (R61, R62). -/
theorem tailRejected_legal {i : Instr} {b : Byte} (hi : i = .decu ∨ i = .decs)
    (hb : b = 0x00 ∨ i = .decu ∧ b = 0x01 ∨ i = .decs ∧ b = 0x7f) : tailRejected (decoderTail i) b = false := by
  obtain rfl | ⟨rfl, rfl⟩ | ⟨rfl, rfl⟩ := hb
  · obtain rfl | rfl := hi <;> decide
  · decide
  · decide

/-- Settles O18: the stops in the order in which a beat reads its registers. -/
theorem beatOnUnwrittenRegistersFaults : Obligations.BeatOnUnwrittenRegistersFaults := by
  intro i v s hp
  refine ⟨fun ho => ⟨exec_opsel_noValue hp ho, ?_⟩, fun ho hi => ?_, fun ho hi hl => ?_⟩
  · rw [step_no_move]
    exact advance_opsel_noValue hp ho
  · rw [exec_encoder_beat hi hp ho]
    refine ⟨fun hr => by simp [encoderBeat, hr], fun r a snk hr hl ha hc => ?_⟩
    have hw : memWrite (encoderByte i r) s = .answered a { s with sink := snk } := memWrite_answered hl ha
    cases a <;> simp [encoderBeat, hr, hw, hc]
  · rw [exec_decoder_beat hi hp ho]
    refine ⟨fun a src ha hc => ?_, fun b src c ha hc => ⟨fun hk => ?_, fun k hk hb => ?_⟩⟩
    · cases a <;> simp [decoderBeat, memRead_answered hl ha, hc]
    · simp [decoderBeat, memRead_answered hl ha, hc, hk]
    · rw [decoderBeat_byte hl ha hc hk fun h63 => tailRejected_legal hi (hb h63)]
      exact ⟨fun hacc => by rw [hacc, readReg_noValue],
        fun a hacc hlt => by rw [hacc, readReg_holds, takePayload, if_pos hlt]⟩

theorem Reg.holds_unique {w : Nat} {r : Reg w} {u v : BitVec w} (hu : r = .holds u) (hv : r = .holds v) : u = v :=
  Reg.holds.inj (hu.symm.trans hv)

theorem SameResponse.refl (s : State) : SameResponse s s := ⟨rfl, rfl, rfl⟩

section EncoderMove

variable {i : Instr} {s t : State} (h : EncoderMove i s t)
include h

theorem EncoderMove.frame :
    t.acc = s.acc ∧ t.shift = s.shift ∧ t.source = s.source ∧ t.inputs = s.inputs ∧ t.opsel = s.opsel := by
  cases h <;> simp

/-- A beat of an encoder moves its sink by nothing but an answer. -/
theorem EncoderMove.sink_answer : t.sink = s.sink ∨ ∃ b a, s.sink.answer b = some (a, t.sink) := by
  cases h with
  | waits => exact .inl rfl
  | refused _ _ ha => exact .inr ⟨_, _, ha⟩
  | goesOn _ _ ha => exact .inr ⟨_, _, ha⟩
  | completes _ _ ha => exact .inr ⟨_, _, ha⟩

theorem EncoderMove.sink_link : t.sink.link = s.sink.link := by
  obtain e | ⟨b, a, ha⟩ := h.sink_answer
  · rw [e]
  · exact (Sink.answer_keeps ha).1

theorem EncoderMove.sameResponse (hp : t.phase = .run) : SameResponse s t := by
  cases h with
  | waits => exact .refl s
  | refused => simp at hp
  | goesOn => simp [SameResponse]
  | completes => simp at hp

/-- The sink gains the byte offered, or nothing moves. -/
theorem EncoderMove.bytes {r : Value} (hrem : s.rem = .holds r) :
    ((s.sink.answer (encoderByte i r)).map Prod.fst = some .ack ∧ t.sink.data = s.sink.data ++ [encoderByte i r]) ∨
    ((s.sink.answer (encoderByte i r)).map Prod.fst ≠ some .ack ∧
      t.sink.data = s.sink.data ∧ t.rem = s.rem ∧ t.cnt = s.cnt) := by
  cases h with
  | waits hr ha =>
    obtain rfl := Reg.holds_unique hr hrem
    exact .inr ⟨by simp [ha], rfl, rfl, rfl⟩
  | refused hr _ ha =>
    obtain rfl := Reg.holds_unique hr hrem
    exact .inr ⟨by simp [ha], by simpa using Sink.answer_data ha, rfl, rfl⟩
  | goesOn hr _ ha =>
    obtain rfl := Reg.holds_unique hr hrem
    exact .inl ⟨by simp [ha], by simpa using Sink.answer_data ha⟩
  | completes hr _ ha =>
    obtain rfl := Reg.holds_unique hr hrem
    exact .inl ⟨by simp [ha], by simpa using Sink.answer_data ha⟩

end EncoderMove

/-- Settles O20: the issue step, a beat, and the move of an operation that is not selected. -/
theorem encoderFrame : Obligations.EncoderFrame := by
  intro i v s t hi h
  obtain ⟨hp, rfl⟩ | ⟨hp, ho, hm⟩ | ⟨hp, ho, rfl⟩ := exec_encoder_next hi h
  · simp [SameResponse, hp]
  · obtain ⟨hacc, hshift, hsource, hinputs, hopsel⟩ := hm.frame
    refine ⟨hacc, hshift, hsource, hinputs, hm.sink_link, by simp [hp], fun _ => ⟨hopsel, hm.sameResponse⟩,
      fun _ hne => absurd ho hne, fun _ _ r b hr hb => ?_⟩
    change b = encoderByte i r at hb
    obtain ⟨hack, hdata⟩ | ⟨hack, hkept⟩ := hm.bytes hr
    · simp [hb, hack, hdata]
    · simp [hb, hack, hkept]
  · simp [SameResponse, hp, ho]

section DecoderMove

variable {i : Instr} {s t : State} (h : DecoderMove i s t)
include h

theorem DecoderMove.frame : t.rem = s.rem ∧ t.sink = s.sink ∧ t.inputs = s.inputs ∧ t.opsel = s.opsel := by
  cases h <;> simp

/-- A beat of a decoder moves its source by nothing but an answer. -/
theorem DecoderMove.source_answer :
    (s.source.answer = none ∧ t = s) ∨ ∃ a, s.source.answer = some (a, t.source) := by
  cases h with
  | waits ha => exact .inl ⟨ha, rfl⟩
  | ends _ ha => exact .inr ⟨_, ha⟩
  | overflows _ ha => exact .inr ⟨_, ha⟩
  | goesOn _ ha => exact .inr ⟨_, ha⟩
  | completes _ ha => exact .inr ⟨_, ha⟩

theorem DecoderMove.source_link : t.source.link = s.source.link := by
  obtain ⟨-, rfl⟩ | ⟨a, ha⟩ := h.source_answer
  · rfl
  · exact (Source.answer_keeps ha).1

theorem DecoderMove.sameResponse (hp : t.phase = .run) : SameResponse s t := by
  cases h with
  | waits => exact .refl s
  | ends => simp at hp
  | overflows => simp at hp
  | goesOn => simp [SameResponse]
  | completes => simp at hp

/-- The source loses the byte it answers, or the registers stay. -/
theorem DecoderMove.bytes :
    (∃ b, s.source.answer = some (.byte b, t.source) ∧ s.source.unread = b :: t.source.unread) ∨
    ((∀ b src, s.source.answer ≠ some (.byte b, src)) ∧
      t.source.unread = s.source.unread ∧ t.acc = s.acc ∧ t.shift = s.shift ∧ t.cnt = s.cnt) := by
  obtain ⟨hn, rfl⟩ | ⟨_ | _, ha⟩ := h.source_answer
  · simp [hn]
  · exact .inl ⟨_, ha, by simpa using Source.answer_unread ha⟩
  · refine .inr ⟨by simp [ha], by simpa using Source.answer_unread ha, ?_⟩
    cases h <;> simp_all

end DecoderMove

/-- Settles O21: the issue step, a beat, and the move of an operation that is not selected. -/
theorem decoderFrame : Obligations.DecoderFrame := by
  intro i s t hi h
  obtain ⟨hp, rfl⟩ | ⟨hp, ho, hm⟩ | ⟨hp, ho, rfl⟩ := exec_decoder_next hi h
  · simp [SameResponse, hp]
  · obtain ⟨hrem, hsink, hinputs, hopsel⟩ := hm.frame
    refine ⟨hrem, hsink, hinputs, hm.source_link, by simp [hp], fun _ => ⟨hopsel, hm.sameResponse⟩,
      fun _ hne => absurd ho hne, fun _ _ => ?_⟩
    obtain ⟨b, ha, hunread⟩ | ⟨hnone, hkept⟩ := hm.bytes
    · simp [ha, hunread]
    · exact ⟨fun b src ha => absurd ha (hnone b src), fun _ => hkept⟩
  · simp [SameResponse, hp, ho]

/-- The last byte of a decoder only sets bits of the accumulator (R57, R84). -/
theorem or_decoderFinish (i : Instr) (acc : Value) (T : Nat) (b : Byte) :
    acc ||| decoderFinish i acc T b = decoderFinish i acc T b := by
  unfold decoderFinish decuFinish decsFinish
  split
  · exact BitVec.or_self
  · split
    · rw [← BitVec.or_assoc, BitVec.or_self]
    · exact BitVec.or_self

theorem or_withPayload (a : Value) (k : BitVec 7) (b : Byte) : a ||| withPayload a k b = withPayload a k b := by
  rw [withPayload, ← BitVec.or_assoc, BitVec.or_self]

theorem or_decodedValue (i : Instr) (a : Value) (k : BitVec 7) (b : Byte) :
    a ||| decodedValue i a k b = decodedValue i a k b := by
  have h := or_decoderFinish i (withPayload a k b) (k.toNat + Config.G) b
  rw [decodedValue, ← h, ← BitVec.or_assoc, or_withPayload]

theorem DecoderMove.acc_bits {i : Instr} {s t : State} {a : Value} (h : DecoderMove i s t) (hacc : s.acc = .holds a) :
    ∃ a', t.acc = .holds a' ∧ a ||| a' = a' := by
  cases h with
  | waits => exact ⟨a, hacc, BitVec.or_self⟩
  | ends => exact ⟨a, hacc, BitVec.or_self⟩
  | overflows => exact ⟨a, hacc, BitVec.or_self⟩
  | goesOn _ _ _ hacc' =>
    obtain rfl := Reg.holds_unique hacc' hacc
    exact ⟨_, rfl, or_withPayload ..⟩
  | completes _ _ _ hacc' =>
    obtain rfl := Reg.holds_unique hacc' hacc
    exact ⟨_, rfl, or_decodedValue ..⟩

/-- Settles O22: a beat only ORs into `ACC`. -/
theorem accumulatorBitsAreOnlySet : Obligations.AccumulatorBitsAreOnlySet := by
  intro i s t a hi hp hacc h
  obtain ⟨hidle, -⟩ | ⟨-, -, hm⟩ | ⟨-, -, rfl⟩ := exec_decoder_next hi h
  · simp [hp] at hidle
  · exact hm.acc_bits hacc
  · exact ⟨a, hacc, BitVec.or_self⟩

end Sys2Proof.Machine
end

section
/-! PROOF. What a beat makes of the working registers, as arithmetic: the value left fits the groups left, and what was read
fits the groups read (40_unsigned_encoder.md R72, 41_unsigned_decoder.md R82, 42_signed_encoder.md R92,
43_signed_decoder.md R102). -/

namespace Sys2Proof.Machine

/-- What is left of an encoder's value fits the groups left after `n` bytes. -/
def encoderFits (i : Instr) (r : Value) (n : Nat) : Prop :=
  if i.op = 0b00#2 then r.toNat < 2 ^ (64 - 7 * n)
  else -(2 : Int) ^ (63 - 7 * n) ≤ r.toInt ∧ r.toInt < 2 ^ (63 - 7 * n)

theorem encuRest_fits {r : Value} {n : Nat} (hn : n ≤ 9) (hfits : r.toNat < 2 ^ (64 - 7 * n))
    (hmore : moreFlag r = true) : n < 9 ∧ (encuRest r).toNat < 2 ^ (64 - 7 * (n + 1)) := by
  have hr := (moreFlag_iff r).1 hmore
  have hlt : n < 9 := by
    by_contra hge
    obtain rfl : n = 9 := by omega
    omega
  have hpow : 2 ^ (64 - 7 * n) = 2 ^ 7 * 2 ^ (64 - 7 * (n + 1)) := by rw [← pow_add]; congr 1; omega
  rw [hpow] at hfits
  exact ⟨hlt, by rw [encuRest, lsr64_toNat]; exact Nat.div_lt_of_lt_mul hfits⟩

theorem encsRest_fits {r : Value} {n : Nat} (hn : n ≤ 9) (hlo : -(2 : Int) ^ (63 - 7 * n) ≤ r.toInt)
    (hhi : r.toInt < 2 ^ (63 - 7 * n)) (hdone : doneFlag r = false) :
    n < 9 ∧ -(2 : Int) ^ (63 - 7 * (n + 1)) ≤ (encsRest r).toInt ∧ (encsRest r).toInt < 2 ^ (63 - 7 * (n + 1)) := by
  have hr : ¬ (-64 ≤ r.toInt ∧ r.toInt ≤ 63) := fun h => by simp [(doneFlag_iff r).2 h] at hdone
  have hlt : n < 9 := by
    by_contra hge
    obtain rfl : n = 9 := by omega
    omega
  have hpow : (2 : Int) ^ (63 - 7 * n) = 2 ^ 7 * 2 ^ (63 - 7 * (n + 1)) := by rw [← pow_add]; congr 1; omega
  have hrest : (encsRest r).toInt = r.toInt / 2 ^ 7 := by simp [encsRest, hdone, asr64_asr64, asr64_toInt]
  rw [hpow] at hlo hhi
  rw [hrest]
  exact ⟨hlt, by omega, by omega⟩

theorem encoderRest_fits {i : Instr} {r : Value} {n : Nat} (hn : n ≤ 9) (hfits : encoderFits i r n)
    (hlast : encoderLast i r = false) : n < 9 ∧ encoderFits i (encoderRest i r) (n + 1) := by
  unfold encoderFits encoderLast encoderRest at *
  split_ifs at * with hop
  · exact encuRest_fits hn hfits (by simpa using hlast)
  · obtain ⟨hlo, hhi⟩ := hfits
    exact encsRest_fits hn hlo hhi hlast

theorem encoderFits_zero (i : Instr) (v : Value) : encoderFits i v 0 := by
  unfold encoderFits
  split
  · exact v.isLt
  · exact ⟨BitVec.le_toInt v, BitVec.toInt_lt⟩

theorem payloadAt_lt (p : Payload) (k : Nat) : (payloadAt p k).toNat < 2 ^ (k + 7) := by
  have hp : p.toNat < 2 ^ 7 := p.isLt
  rw [payloadAt, lsl64_toNat, BitVec.toNat_setWidth_of_le (by decide), pow_add, mul_comm (2 ^ k)]
  exact (Nat.mod_le ..).trans_lt (Nat.mul_lt_mul_of_pos_right hp (Nat.two_pow_pos k))

theorem withPayload_lt {a : Value} {k : BitVec 7} (b : Byte) (ha : a.toNat < 2 ^ k.toNat) :
    (withPayload a k b).toNat < 2 ^ (k.toNat + 7) := by
  rw [withPayload, BitVec.toNat_or]
  exact Nat.or_lt_two_pow (ha.trans (Nat.pow_lt_pow_right (by decide) (by omega))) (payloadAt_lt ..)

/-- A set continuation flag never passes the test of the 10th byte (R63). -/
theorem tailRejected_of_contFlag (legalTail : Payload → Bool) {b : Byte} (h : contFlag b = true) :
    tailRejected legalTail b = true := by
  simp [tailRejected, h]

theorem cnt_succ_toNat {c : BitVec 4} (h : c.toNat ≤ 9) : (c + 1).toNat = c.toNat + 1 := by
  bv_omega

theorem shift_succ_toNat {k : BitVec 7} (h : k.toNat ≤ 63) : (k + 7).toNat = k.toNat + 7 := by
  bv_omega

end Sys2Proof.Machine
end

section
/-! PROOF. The invariant read operation by operation: what a consistent running state says of the registers of the
operation it runs, and the rows of the table of outcomes (10_state.md R16, R17). -/

namespace Sys2Proof.Machine

/-- The working registers are as the rule of operation `i` leaves them. -/
def State.registersLegal (s : State) : Instr → Bool
  | .encu _ => s.encuLegal
  | .decu => s.decoderLegal
  | .encs _ => s.encsLegal
  | .decs => s.decoderLegal

theorem workLegal_idle {s : State} (hp : s.phase = .idle) : s.workLegal = true := by
  simp [State.workLegal, hp]

theorem workLegal_run {s : State} {i : Instr} (hp : s.phase = .run) (ho : s.opsel = .holds i.op) :
    s.workLegal = s.registersLegal i := by
  cases i <;> simp [State.workLegal, State.registersLegal, Instr.op, hp, ho]

theorem exists_opsel_of_workLegal {s : State} (hw : s.workLegal = true) (hp : s.phase = .run) :
    ∃ i : Instr, s.opsel = .holds i.op := by
  cases ho : s.opsel with
  | noValue => simp [State.workLegal, hp, ho] at hw
  | holds op => exact ⟨selected op, by rw [selected_op]⟩

theorem encoderLegal_iff {i : Instr} {v : Value} (hi : i = .encu v ∨ i = .encs v) {s : State} :
    s.registersLegal i = true ↔
      ∃ r c, s.rem = .holds r ∧ s.cnt = .holds c ∧ c.toNat ≤ 9 ∧ encoderFits i r c.toNat := by
  obtain rfl | rfl := hi
  · simp only [State.registersLegal, State.encuLegal, encoderFits, Instr.op]
    cases s.rem <;> cases s.cnt <;> simp
  · simp only [State.registersLegal, State.encsLegal, encoderFits, Instr.op]
    cases s.rem <;> cases s.cnt <;> simp [and_assoc]

theorem decoderLegal_iff {i : Instr} (hi : i = .decu ∨ i = .decs) {s : State} :
    s.registersLegal i = true ↔
      ∃ a k c, s.acc = .holds a ∧ s.shift = .holds k ∧ s.cnt = .holds c ∧ c.toNat ≤ 9 ∧ k.toNat = 7 * c.toNat ∧
        a.toNat < 2 ^ (7 * c.toNat) := by
  have h : s.registersLegal i = s.decoderLegal := by obtain rfl | rfl := hi <;> rfl
  rw [h, State.decoderLegal]
  cases s.acc <;> cases s.shift <;> cases s.cnt <;> simp [and_assoc]

@[simp] theorem ofCode_code (e : Status) : Status.ofCode e.code = e := by
  cases e <;> rfl

section Rows

variable {i : Instr} {n : BitVec 4}

theorem responseRow_encoder {v : Value} (hi : i = .encu v ∨ i = .encs v) (e : Status) (x : Reg 64) :
    responseRow i e x n = responseRow (.encu 0) e x n := by
  obtain rfl | rfl := hi <;> cases e <;> rfl

theorem responseRow_decoder (hi : i = .decu ∨ i = .decs) (e : Status) (x : Reg 64) :
    responseRow i e x n = responseRow .decu e x n := by
  obtain rfl | rfl := hi <;> cases e <;> rfl

theorem responseRow_encu_ok (h1 : 1 ≤ n.toNat) (h10 : n.toNat ≤ 10) :
    responseRow (.encu 0) .ok .noValue n = true := by
  simp [responseRow, h1, h10]

theorem responseRow_encu_writeError (h : n.toNat ≤ 9) : responseRow (.encu 0) .writeError .noValue n = true := by
  simp [responseRow, h]

theorem responseRow_decu_ok (a : Value) (h1 : 1 ≤ n.toNat) (h10 : n.toNat ≤ 10) :
    responseRow .decu .ok (.holds a) n = true := by
  simp [responseRow, Reg.hasValue, h1, h10]

theorem responseRow_decu_endOfInput (h : n.toNat ≤ 9) : responseRow .decu .endOfInput .noValue n = true := by
  simp [responseRow, h]

theorem responseRow_decu_overflow (h : n.toNat = 10) : responseRow .decu .overflow .noValue n = true := by
  simp [responseRow, h]

end Rows

/-- The response registers hold the row of the table of R17 that operation `i` reports with its outcome, `COUNT` being
`CNT`. -/
def ReportsRow (i : Instr) (t : State) : Prop :=
  ∃ (st : BitVec 2) (n : BitVec 4), t.status = .holds st ∧ t.count = .holds n ∧ t.cnt = .holds n ∧
    responseRow i (Status.ofCode st) t.valOut n = true

theorem ReportsRow.responseLegal {i : Instr} {t : State} (h : ReportsRow i t) : t.responseLegal = true := by
  obtain ⟨st, n, hst, hn, -, hrow⟩ := h
  simp only [State.responseLegal, hst, hn, Bool.or_eq_true]
  obtain ⟨v, hi⟩ | hi := encoder_or_decoder i
  · exact .inl (responseRow_encoder hi .. ▸ hrow)
  · exact .inr (responseRow_decoder hi .. ▸ hrow)

theorem reportsRow_intro {i : Instr} {t : State} {e : Status} {n : BitVec 4} (hst : t.status = .holds e.code)
    (hn : t.count = .holds n) (hc : t.cnt = .holds n) (hrow : responseRow i e t.valOut n = true) : ReportsRow i t :=
  ⟨_, _, hst, hn, hc, (ofCode_code e).symm ▸ hrow⟩

theorem SameResponse.responseLegal {s t : State} (h : SameResponse s t) : t.responseLegal = s.responseLegal := by
  obtain ⟨hst, hv, hn⟩ := h
  simp only [State.responseLegal, hst, hv, hn]

theorem EncoderMove.reportsRow {i : Instr} {v : Value} {s t : State} (hi : i = .encu v ∨ i = .encs v)
    (h : EncoderMove i s t) (hw : s.registersLegal i = true) (hs : s.phase = .run) (ht : t.phase = .idle) :
    ReportsRow i t := by
  obtain ⟨r, c, hr, hc, hle, -⟩ := (encoderLegal_iff hi).1 hw
  have hsucc := cnt_succ_toNat hle
  cases h with
  | waits => simp [hs] at ht
  | refused _ hc' =>
    obtain rfl := Reg.holds_unique hc hc'
    exact reportsRow_intro rfl rfl hc ((responseRow_encoder hi ..).trans (responseRow_encu_writeError hle))
  | goesOn => simp [hs] at ht
  | completes _ hc' =>
    obtain rfl := Reg.holds_unique hc hc'
    exact reportsRow_intro rfl rfl rfl
      ((responseRow_encoder hi ..).trans (responseRow_encu_ok (by omega) (by omega)))

theorem DecoderMove.reportsRow {i : Instr} {s t : State} (hi : i = .decu ∨ i = .decs)
    (h : DecoderMove i s t) (hw : s.registersLegal i = true) (hs : s.phase = .run) (ht : t.phase = .idle) :
    ReportsRow i t := by
  obtain ⟨a, k, c, hacc, hk, hc, hle, hshift, -⟩ := (decoderLegal_iff hi).1 hw
  have hsucc := cnt_succ_toNat hle
  cases h with
  | waits => simp [hs] at ht
  | ends hc' =>
    obtain rfl := Reg.holds_unique hc hc'
    exact reportsRow_intro rfl rfl hc ((responseRow_decoder hi ..).trans (responseRow_decu_endOfInput hle))
  | overflows hc' _ hk' =>
    obtain rfl := Reg.holds_unique hc hc'
    obtain rfl := Reg.holds_unique hk hk'
    exact reportsRow_intro rfl rfl rfl ((responseRow_decoder hi ..).trans (responseRow_decu_overflow (by omega)))
  | goesOn => simp [hs] at ht
  | completes hc' =>
    obtain rfl := Reg.holds_unique hc hc'
    exact reportsRow_intro rfl rfl rfl
      ((responseRow_decoder hi ..).trans (responseRow_decu_ok _ (by omega) (by omega)))

/-- The response of a move from a state with legal working registers: untouched while the core runs on, a row of the table
at the operation's end. -/
theorem exec_response {i : Instr} {s t : State} (hw : s.workLegal = true) (h : exec i s = .next t) :
    (t.phase = .run → SameResponse s t) ∧ (s.phase = .run → t.phase = .idle → ReportsRow i t) := by
  obtain ⟨v, hi⟩ | hi := encoder_or_decoder i
  · obtain ⟨hp, rfl⟩ | ⟨hp, ho, hm⟩ | ⟨hp, -, rfl⟩ := exec_encoder_next hi h
    · simp [SameResponse, hp]
    · exact ⟨hm.sameResponse, fun _ => hm.reportsRow hi (workLegal_run hp ho ▸ hw) hp⟩
    · simp [SameResponse, hp]
  · obtain ⟨hp, rfl⟩ | ⟨hp, ho, hm⟩ | ⟨hp, -, rfl⟩ := exec_decoder_next hi h
    · simp [SameResponse, hp]
    · exact ⟨hm.sameResponse, fun _ => hm.reportsRow hi (workLegal_run hp ho ▸ hw) hp⟩
    · simp [SameResponse, hp]

/-- Settles O23: of consistency only the working registers matter. -/
theorem responseIsWrittenAtTheEnd : Obligations.ResponseIsWrittenAtTheEnd :=
  fun _ _ _ ⟨_, hw, _⟩ h => exec_response hw h

end Sys2Proof.Machine
end

section
/-! PROOF. The invariant: it holds after reset, every move of the core and of the outside world keeps it, and under it no
move of the core stops (10_state.md R16, R17, R19, R22, R23; 44_low_bits_helper.md R112; 70_reset_and_hazards.md R143). -/

namespace Sys2Proof.Machine

/-- Settles O57: the reset state is one fixed state. -/
theorem resetIsConsistent : Obligations.ResetIsConsistent := by
  unfold Obligations.ResetIsConsistent
  decide

theorem EncoderMove.registersLegal {i : Instr} {v : Value} {s t : State} (hi : i = .encu v ∨ i = .encs v)
    (h : EncoderMove i s t) (hw : s.registersLegal i = true) (ht : t.phase = .run) : t.registersLegal i = true := by
  obtain ⟨r, c, hr, hc, hle, hfits⟩ := (encoderLegal_iff hi).1 hw
  cases h with
  | waits => exact hw
  | refused => simp at ht
  | goesOn hr' hc' _ hlast =>
    obtain rfl := Reg.holds_unique hr hr'
    obtain rfl := Reg.holds_unique hc hc'
    obtain ⟨hlt, hfits'⟩ := encoderRest_fits hle hfits hlast
    have hsucc := cnt_succ_toNat hle
    exact (encoderLegal_iff hi).2 ⟨_, _, rfl, rfl, by omega, hsucc ▸ hfits'⟩
  | completes => simp at ht

theorem DecoderMove.registersLegal {i : Instr} {s t : State} (hi : i = .decu ∨ i = .decs)
    (h : DecoderMove i s t) (hw : s.registersLegal i = true) (ht : t.phase = .run) : t.registersLegal i = true := by
  obtain ⟨a, k, c, hacc, hk, hc, hle, hshift, ha⟩ := (decoderLegal_iff hi).1 hw
  cases h with
  | waits => exact hw
  | ends => simp at ht
  | overflows => simp at ht
  | @goesOn _ _ b _ _ hc' _ hk' hacc' hk63 htail hcont =>
    obtain rfl := Reg.holds_unique hacc hacc'
    obtain rfl := Reg.holds_unique hk hk'
    obtain rfl := Reg.holds_unique hc hc'
    have hne : k.toNat ≠ 63 := fun e => by simpa [tailRejected_of_contFlag _ hcont] using htail e
    have hsucc := cnt_succ_toNat hle
    have hsucc' := shift_succ_toNat hk63
    have hpow : 7 * (c + 1).toNat = k.toNat + 7 := by omega
    exact (decoderLegal_iff hi).2 ⟨_, _, _, rfl, rfl, rfl, by omega, by omega,
      hpow ▸ withPayload_lt b (hshift ▸ ha)⟩
  | completes => simp at ht

/-- The issue step of an encoder leaves its registers as its rule asks. -/
theorem issueEncoder_registersLegal {i : Instr} {v : Value} (hi : i = .encu v ∨ i = .encs v) (s : State) :
    ((s.issueEncoder v).launch i.op).registersLegal i = true :=
  (encoderLegal_iff hi).2 ⟨v, 0, rfl, rfl, by decide, encoderFits_zero i v⟩

/-- The issue step of a decoder leaves its registers as its rule asks. -/
theorem issueDecoder_registersLegal {i : Instr} (hi : i = .decu ∨ i = .decs) (s : State) :
    (s.issueDecoder.launch i.op).registersLegal i = true :=
  (decoderLegal_iff hi).2 ⟨0, 0, 0, rfl, rfl, rfl, by decide, by decide, by decide⟩

theorem exec_keeps_workLegal {i : Instr} {s t : State} (hw : s.workLegal = true) (h : exec i s = .next t) :
    t.workLegal = true := by
  cases ht : t.phase with
  | idle => exact workLegal_idle ht
  | run =>
    obtain ⟨v, hi⟩ | hi := encoder_or_decoder i
    · obtain ⟨hp, rfl⟩ | ⟨hp, ho, hm⟩ | ⟨-, -, rfl⟩ := exec_encoder_next hi h
      · exact (workLegal_run ht rfl).trans (issueEncoder_registersLegal hi s)
      · obtain ⟨-, -, -, -, hopsel⟩ := hm.frame
        rw [workLegal_run hp ho] at hw
        exact (workLegal_run ht (hopsel.trans ho)).trans (hm.registersLegal hi hw ht)
      · exact hw
    · obtain ⟨hp, rfl⟩ | ⟨hp, ho, hm⟩ | ⟨-, -, rfl⟩ := exec_decoder_next hi h
      · exact (workLegal_run ht rfl).trans (issueDecoder_registersLegal hi s)
      · obtain ⟨-, -, -, hopsel⟩ := hm.frame
        rw [workLegal_run hp ho] at hw
        exact (workLegal_run ht (hopsel.trans ho)).trans (hm.registersLegal hi hw ht)
      · exact hw

theorem exec_keeps_responseLegal {i : Instr} {s t : State} (hr : s.responseLegal = true) (hw : s.workLegal = true)
    (h : exec i s = .next t) : t.responseLegal = true := by
  obtain ⟨hsame, hrow⟩ := exec_response hw h
  cases ht : t.phase with
  | run => exact (hsame ht).responseLegal.trans hr
  | idle =>
    cases hs : s.phase with
    | run => exact (hrow hs ht).responseLegal
    | idle =>
      obtain ⟨v, hi⟩ | hi := encoder_or_decoder i
      · obtain ⟨-, rfl⟩ := (exec_encoder_idle_iff hi hs).1 h
        simp at ht
      · obtain ⟨-, rfl⟩ := (exec_decoder_idle_iff hi hs).1 h
        simp at ht

/-- A move of the core keeps its channels well-formed and leaves the moves to come. -/
theorem exec_keeps_environment {i : Instr} {s t : State} (h : exec i s = .next t) :
    (s.source.wf = true → t.source.wf = true) ∧ (s.sink.wf = true → t.sink.wf = true) ∧ t.inputs = s.inputs := by
  obtain ⟨v, hi⟩ | hi := encoder_or_decoder i
  · obtain ⟨-, rfl⟩ | ⟨-, -, hm⟩ | ⟨-, -, rfl⟩ := exec_encoder_next hi h
    · exact ⟨id, id, rfl⟩
    · obtain ⟨-, -, hsource, hinputs, -⟩ := hm.frame
      refine ⟨hsource ▸ id, ?_, hinputs⟩
      obtain e | ⟨b, a, ha⟩ := hm.sink_answer
      · exact e ▸ id
      · exact (Sink.answer_keeps ha).2
    · exact ⟨id, id, rfl⟩
  · obtain ⟨-, rfl⟩ | ⟨-, -, hm⟩ | ⟨-, -, rfl⟩ := exec_decoder_next hi h
    · exact ⟨id, id, rfl⟩
    · obtain ⟨-, hsink, hinputs, -⟩ := hm.frame
      refine ⟨?_, hsink ▸ id, hinputs⟩
      obtain ⟨-, rfl⟩ | ⟨a, ha⟩ := hm.source_answer
      · exact id
      · exact (Source.answer_keeps ha).2
    · exact ⟨id, id, rfl⟩

theorem exec_keeps_consistent {i : Instr} {s t : State} (hs : s.Consistent) (h : exec i s = .next t) :
    t.Consistent := by
  obtain ⟨hr, hw, hsrc, hsnk, hin⟩ := hs
  obtain ⟨hsrc', hsnk', hin'⟩ := exec_keeps_environment h
  exact ⟨exec_keeps_responseLegal hr hw h, exec_keeps_workLegal hw h, hsrc' hsrc, hsnk' hsnk, hin' ▸ hin⟩

theorem advance_keeps_consistent {s t : State} (hs : s.Consistent) (h : advance s = .next t) : t.Consistent := by
  cases hp : s.phase with
  | idle =>
    rw [advance_idle hp] at h
    exact Host.Outcome.next.inj h ▸ hs
  | run =>
    obtain ⟨i, -, hi⟩ := advance_run_next hp h
    exact exec_keeps_consistent hs hi

theorem coreReset_consistent {s : State} (hs : s.Consistent) : s.coreReset.Consistent := by
  obtain ⟨-, -, hsrc, hsnk, hin⟩ := hs
  exact ⟨rfl, rfl, hsrc, hsnk, hin⟩

/-- Every move of the outside world keeps the invariant, with the beat it leaves to the core. -/
theorem takeInput_keeps_consistent {m : Input} {s t : State} (hm : m.wf = true) (hs : s.Consistent)
    (h : takeInput m s = .next t) : t.Consistent := by
  cases m with
  | wait => exact advance_keeps_consistent hs h
  | awaitIdle => cases h; exact hs
  | command w =>
    simp only [takeInput, offer] at h
    split at h
    · exact exec_keeps_consistent hs h
    · exact advance_keeps_consistent hs h
  | read r =>
    simp only [takeInput] at h
    split at h
    · cases h; exact hs
    · cases h
  | reset => cases h; exact coreReset_consistent hs
  | attachSource src =>
    cases h
    obtain ⟨hr, hw, -, hsnk, hin⟩ := hs
    exact ⟨hr, hw, hm, hsnk, hin⟩
  | attachSink snk =>
    cases h
    obtain ⟨hr, hw, hsrc, -, hin⟩ := hs
    exact ⟨hr, hw, hsrc, hm, hin⟩
  | presentSink =>
    cases h
    obtain ⟨hr, hw, -, hsnk, hin⟩ := hs
    exact ⟨hr, hw, by simp [Source.wf], hsnk, hin⟩

/-- Taking the next move off the list keeps the invariant. -/
theorem consistent_rest {s : State} {m : Input} {rest : List Input} (hs : s.Consistent) (h : s.inputs = m :: rest) :
    m.wf = true ∧ ({ s with inputs := rest } : State).Consistent := by
  obtain ⟨hr, hw, hsrc, hsnk, hin⟩ := hs
  rw [h, List.all_cons, Bool.and_eq_true] at hin
  obtain ⟨hm, hrest⟩ := hin
  exact ⟨hm, hr, hw, hsrc, hsnk, hrest⟩

/-- Settles O58: by the two ways a step can go. -/
theorem everyStepKeepsConsistency : Obligations.EveryStepKeepsConsistency := by
  intro s t hs h
  obtain hstep | ⟨m, rest, hin, hstep⟩ := step_cases s
  · exact advance_keeps_consistent hs (hstep ▸ h)
  · obtain ⟨hm, hs'⟩ := consistent_rest hs hin
    exact takeInput_keeps_consistent hm hs' (hstep ▸ h)

theorem exists_encoderMove (i : Instr) {s : State} {r : Value} {c : BitVec 4} (hr : s.rem = .holds r)
    (hc : s.cnt = .holds c) : ∃ t, EncoderMove i s t := by
  rcases ha : s.sink.answer (encoderByte i r) with _ | ⟨_ | _, snk⟩
  · exact ⟨_, .waits hr ha⟩
  · cases hlast : encoderLast i r with
    | false => exact ⟨_, .goesOn hr hc ha hlast⟩
    | true => exact ⟨_, .completes hr hc ha hlast⟩
  · exact ⟨_, .refused hr hc ha⟩

theorem exists_decoderMove (i : Instr) {s : State} {a : Value} {k : BitVec 7} {c : BitVec 4} (hacc : s.acc = .holds a)
    (hk : s.shift = .holds k) (hc : s.cnt = .holds c) (hle : k.toNat ≤ 63) : ∃ t, DecoderMove i s t := by
  rcases ha : s.source.answer with _ | ⟨b | _, src⟩
  · exact ⟨_, .waits ha⟩
  · by_cases hrej : k.toNat = 63 ∧ tailRejected (decoderTail i) b = true
    · obtain ⟨hk63, htail⟩ := hrej
      exact ⟨_, .overflows hc ha hk hk63 htail⟩
    · have htail : k.toNat = 63 → tailRejected (decoderTail i) b = false := fun e => by simpa [e] using hrej
      cases hcont : contFlag b with
      | false => exact ⟨_, .completes hc ha hk hacc hle htail hcont⟩
      | true => exact ⟨_, .goesOn hc ha hk hacc hle htail hcont⟩
  · exact ⟨_, .ends hc ha⟩

/-- On channels of its own a move of the core on behalf of an operation never stops. -/
theorem exec_never_stops {s : State} (i : Instr) (hw : s.workLegal = true) (hl : s.Launchable)
    (ho : s.phase = .run → s.opsel = .holds i.op) : ∃ t, exec i s = .next t := by
  obtain ⟨hsrc, hsnk⟩ := hl
  obtain ⟨v, hi⟩ | hi := encoder_or_decoder i <;> cases hp : s.phase
  case inl.idle => exact ⟨_, (exec_encoder_idle_iff hi hp).2 ⟨hsnk, rfl⟩⟩
  case inr.idle => exact ⟨_, (exec_decoder_idle_iff hi hp).2 ⟨hsrc, rfl⟩⟩
  case inl.run =>
    rw [workLegal_run hp (ho hp)] at hw
    obtain ⟨r, c, hr, hc, -⟩ := (encoderLegal_iff hi).1 hw
    obtain ⟨t, hm⟩ := exists_encoderMove i hr hc
    exact ⟨t, (exec_encoder_run_iff hi hp (ho hp)).2 ⟨hsnk, hm⟩⟩
  case inr.run =>
    rw [workLegal_run hp (ho hp)] at hw
    obtain ⟨a, k, c, hacc, hk, hc, hle, hshift, -⟩ := (decoderLegal_iff hi).1 hw
    obtain ⟨t, hm⟩ := exists_decoderMove i hacc hk hc (by omega)
    exact ⟨t, (exec_decoder_run_iff hi hp (ho hp)).2 ⟨hsrc, hm⟩⟩

theorem advance_never_stops {s : State} (hw : s.workLegal = true) (hl : s.Launchable) : ∃ t, advance s = .next t := by
  cases hp : s.phase with
  | idle => exact ⟨s, advance_idle hp⟩
  | run =>
    obtain ⟨i, ho⟩ := exists_opsel_of_workLegal hw hp
    rw [advance_run hp ho]
    exact exec_never_stops i hw hl fun _ => ho

theorem takeInput_never_stops {m : Input} {s : State} (hw : s.workLegal = true) (hl : s.Launchable)
    (hm : ∀ r, m ≠ .read r) : ∃ t, takeInput m s = .next t := by
  cases m with
  | wait => exact advance_never_stops hw hl
  | awaitIdle => exact ⟨_, rfl⟩
  | command w =>
    simp only [takeInput, offer]
    split
    · next hp => exact exec_never_stops _ hw hl (by simp [hp])
    · exact advance_never_stops hw hl
  | read r => exact absurd rfl (hm r)
  | reset => exact ⟨_, rfl⟩
  | attachSource src => exact ⟨_, rfl⟩
  | attachSink snk => exact ⟨_, rfl⟩
  | presentSink => exact ⟨_, rfl⟩

theorem ne_read_of_nextIsRead {s : State} {m : Input} {rest : List Input} (h : s.nextIsRead = false)
    (hin : s.inputs = m :: rest) (r : ResponseReg) : m ≠ .read r := by
  rintro rfl
  simp [State.nextIsRead, hin] at h

/-- Settles O59: by the two ways a step can go. -/
theorem consistentStepsNeverStop : Obligations.ConsistentStepsNeverStop := by
  intro s hs hl hread
  obtain ⟨-, hw, -⟩ := hs
  obtain hstep | ⟨m, rest, hin, hstep⟩ := step_cases s <;> rw [hstep]
  · exact advance_never_stops hw hl
  · exact takeInput_never_stops hw hl (ne_read_of_nextIsRead hread hin)

end Sys2Proof.Machine
end

section
/-! PROOF. Two states that agree on what the running operation reads move alike (10_state.md R10). -/

namespace Sys2Proof.Machine

/-- `r` is a next state alike to `s'`, and with its response where `s'` ends the operation that `s` runs. -/
def MatchedBy (s s' : State) (r : StepResult) : Prop :=
  ∃ t', r = .next t' ∧ Alike s' t' ∧ (s.phase = .run → s'.phase = .idle → SameResponse s' t')

/-- What `Alike` asks in both phases. -/
def SameSurroundings (s t : State) : Prop :=
  s.phase = t.phase ∧ s.source = t.source ∧ s.sink = t.sink ∧ s.inputs = t.inputs

theorem alike_idle_iff {s t : State} (hp : s.phase = .idle) : Alike s t ↔ SameSurroundings s t := by
  simp [Alike, SameSurroundings, hp]

theorem alike_encoder_iff {i : Instr} {v : Value} {s t : State} (hi : i = .encu v ∨ i = .encs v) (hp : s.phase = .run)
    (ho : s.opsel = .holds i.op) :
    Alike s t ↔ SameSurroundings s t ∧ s.opsel = t.opsel ∧ s.cnt = t.cnt ∧ s.rem = t.rem := by
  obtain rfl | rfl := hi <;> simp [Alike, SameSurroundings, hp, ho, Instr.op, and_assoc]

theorem alike_decoder_iff {i : Instr} {s t : State} (hi : i = .decu ∨ i = .decs) (hp : s.phase = .run)
    (ho : s.opsel = .holds i.op) :
    Alike s t ↔
      SameSurroundings s t ∧ s.opsel = t.opsel ∧ s.cnt = t.cnt ∧ s.acc = t.acc ∧ s.shift = t.shift := by
  obtain rfl | rfl := hi <;> simp [Alike, SameSurroundings, hp, ho, Instr.op, and_assoc]

theorem Alike.surroundings {s t : State} (h : Alike s t) : SameSurroundings s t := by
  obtain ⟨hp, hsrc, hsnk, hin, -⟩ := h
  exact ⟨hp, hsrc, hsnk, hin⟩

/-- A beat of an encoder depends on `REM`, `CNT` and the sink alone. -/
theorem EncoderMove.of_agree {i : Instr} {s t s' : State} (h : EncoderMove i s s') (hrem : s.rem = t.rem)
    (hcnt : s.cnt = t.cnt) (hsnk : s.sink = t.sink) (hp : s.phase = t.phase) :
    ∃ t', EncoderMove i t t' ∧ s'.rem = t'.rem ∧ s'.cnt = t'.cnt ∧ s'.sink = t'.sink ∧ s'.phase = t'.phase ∧
      (s.phase = .run → s'.phase = .idle → SameResponse s' t') := by
  cases h with
  | waits hr ha =>
    exact ⟨_, .waits (hrem ▸ hr) (hsnk ▸ ha), hrem, hcnt, hsnk, hp, fun hrun hidle => by simp [hrun] at hidle⟩
  | refused hr hc ha =>
    exact ⟨_, .refused (hrem ▸ hr) (hcnt ▸ hc) (hsnk ▸ ha), hrem, hcnt, rfl, rfl, fun _ _ => ⟨rfl, rfl, rfl⟩⟩
  | goesOn hr hc ha hlast =>
    exact ⟨_, .goesOn (hrem ▸ hr) (hcnt ▸ hc) (hsnk ▸ ha) hlast, rfl, rfl, rfl, hp,
      fun hrun hidle => by simp [hrun] at hidle⟩
  | completes hr hc ha hlast =>
    exact ⟨_, .completes (hrem ▸ hr) (hcnt ▸ hc) (hsnk ▸ ha) hlast, rfl, rfl, rfl, rfl, fun _ _ => ⟨rfl, rfl, rfl⟩⟩

/-- A beat of a decoder depends on `ACC`, `SHIFT`, `CNT` and the source alone. -/
theorem DecoderMove.of_agree {i : Instr} {s t s' : State} (h : DecoderMove i s s') (hacc : s.acc = t.acc)
    (hshift : s.shift = t.shift) (hcnt : s.cnt = t.cnt) (hsrc : s.source = t.source) (hp : s.phase = t.phase) :
    ∃ t', DecoderMove i t t' ∧ s'.acc = t'.acc ∧ s'.shift = t'.shift ∧ s'.cnt = t'.cnt ∧ s'.source = t'.source ∧
      s'.phase = t'.phase ∧ (s.phase = .run → s'.phase = .idle → SameResponse s' t') := by
  cases h with
  | waits ha =>
    exact ⟨_, .waits (hsrc ▸ ha), hacc, hshift, hcnt, hsrc, hp, fun hrun hidle => by simp [hrun] at hidle⟩
  | ends hc ha =>
    exact ⟨_, .ends (hcnt ▸ hc) (hsrc ▸ ha), hacc, hshift, hcnt, rfl, rfl, fun _ _ => ⟨rfl, rfl, rfl⟩⟩
  | overflows hc ha hk hk63 htail =>
    exact ⟨_, .overflows (hcnt ▸ hc) (hsrc ▸ ha) (hshift ▸ hk) hk63 htail, hacc, hshift, rfl, rfl, rfl,
      fun _ _ => ⟨rfl, rfl, rfl⟩⟩
  | goesOn hc ha hk ha' hle htail hcont =>
    exact ⟨_, .goesOn (hcnt ▸ hc) (hsrc ▸ ha) (hshift ▸ hk) (hacc ▸ ha') hle htail hcont, rfl, rfl, rfl, rfl, hp,
      fun hrun hidle => by simp [hrun] at hidle⟩
  | completes hc ha hk ha' hle htail hcont =>
    exact ⟨_, .completes (hcnt ▸ hc) (hsrc ▸ ha) (hshift ▸ hk) (hacc ▸ ha') hle htail hcont, rfl, hshift, rfl, rfl,
      rfl, fun _ _ => ⟨rfl, rfl, rfl⟩⟩

/-- A move on behalf of an encoder, from alike states: its issue step overwrites what it will read, its beat carries it on. -/
theorem exec_encoder_matched {i : Instr} {v : Value} {s t s' : State} (hi : i = .encu v ∨ i = .encs v)
    (hst : Alike s t) (ho : s.phase = .run → s.opsel = .holds i.op) (h : exec i s = .next s') :
    MatchedBy s s' (exec i t) := by
  obtain ⟨hphase, hsrc, hsnk, hin⟩ := hst.surroundings
  cases hp : s.phase with
  | idle =>
    obtain ⟨hl, rfl⟩ := (exec_encoder_idle_iff hi hp).1 h
    refine ⟨_, (exec_encoder_idle_iff hi (hphase ▸ hp)).2 ⟨hsnk ▸ hl, rfl⟩, ?_, by simp⟩
    exact (alike_encoder_iff hi rfl rfl).2 ⟨⟨rfl, hsrc, hsnk, hin⟩, rfl, rfl, rfl⟩
  | run =>
    have hos := ho hp
    obtain ⟨-, hop, hcnt, hrem⟩ := (alike_encoder_iff hi hp hos).1 hst
    obtain ⟨hl, hm⟩ := (exec_encoder_run_iff hi hp hos).1 h
    obtain ⟨t', hm', hrem', hcnt', hsnk', hphase', hresp⟩ := hm.of_agree hrem hcnt hsnk hphase
    obtain ⟨-, -, fsrc, fin, fop⟩ := hm.frame
    obtain ⟨-, -, fsrc', fin', fop'⟩ := hm'.frame
    have hsur : SameSurroundings s' t' := ⟨hphase', by rw [fsrc, fsrc', hsrc], hsnk', by rw [fin, fin', hin]⟩
    refine ⟨t', (exec_encoder_run_iff hi (hphase ▸ hp) (hop ▸ hos)).2 ⟨hsnk ▸ hl, hm'⟩, ?_, hresp⟩
    cases hp' : s'.phase with
    | idle => exact (alike_idle_iff hp').2 hsur
    | run => exact (alike_encoder_iff hi hp' (fop.trans hos)).2 ⟨hsur, by rw [fop, fop', hop], hcnt', hrem'⟩

/-- A move on behalf of a decoder, from alike states: its issue step overwrites what it will read, its beat carries it on. -/
theorem exec_decoder_matched {i : Instr} {s t s' : State} (hi : i = .decu ∨ i = .decs)
    (hst : Alike s t) (ho : s.phase = .run → s.opsel = .holds i.op) (h : exec i s = .next s') :
    MatchedBy s s' (exec i t) := by
  obtain ⟨hphase, hsrc, hsnk, hin⟩ := hst.surroundings
  cases hp : s.phase with
  | idle =>
    obtain ⟨hl, rfl⟩ := (exec_decoder_idle_iff hi hp).1 h
    refine ⟨_, (exec_decoder_idle_iff hi (hphase ▸ hp)).2 ⟨hsrc ▸ hl, rfl⟩, ?_, by simp⟩
    exact (alike_decoder_iff hi rfl rfl).2 ⟨⟨rfl, hsrc, hsnk, hin⟩, rfl, rfl, rfl, rfl⟩
  | run =>
    have hos := ho hp
    obtain ⟨-, hop, hcnt, hacc, hshift⟩ := (alike_decoder_iff hi hp hos).1 hst
    obtain ⟨hl, hm⟩ := (exec_decoder_run_iff hi hp hos).1 h
    obtain ⟨t', hm', hacc', hshift', hcnt', hsrc', hphase', hresp⟩ := hm.of_agree hacc hshift hcnt hsrc hphase
    obtain ⟨-, fsnk, fin, fop⟩ := hm.frame
    obtain ⟨-, fsnk', fin', fop'⟩ := hm'.frame
    have hsur : SameSurroundings s' t' := ⟨hphase', hsrc', by rw [fsnk, fsnk', hsnk], by rw [fin, fin', hin]⟩
    refine ⟨t', (exec_decoder_run_iff hi (hphase ▸ hp) (hop ▸ hos)).2 ⟨hsrc ▸ hl, hm'⟩, ?_, hresp⟩
    cases hp' : s'.phase with
    | idle => exact (alike_idle_iff hp').2 hsur
    | run =>
      exact (alike_decoder_iff hi hp' (fop.trans hos)).2 ⟨hsur, by rw [fop, fop', hop], hcnt', hacc', hshift'⟩

theorem exec_matched {i : Instr} {s t s' : State} (hst : Alike s t) (ho : s.phase = .run → s.opsel = .holds i.op)
    (h : exec i s = .next s') : MatchedBy s s' (exec i t) := by
  obtain ⟨v, hi⟩ | hi := encoder_or_decoder i
  · exact exec_encoder_matched hi hst ho h
  · exact exec_decoder_matched hi hst ho h

theorem advance_matched {s t s' : State} (hst : Alike s t) (h : advance s = .next s') :
    MatchedBy s s' (advance t) := by
  have ⟨hphase, _, _, _, hrun⟩ := hst
  cases hp : s.phase with
  | idle =>
    rw [advance_idle hp] at h
    cases h
    exact ⟨t, advance_idle (hphase ▸ hp), hst, by simp [hp]⟩
  | run =>
    obtain ⟨i, ho, hi⟩ := advance_run_next hp h
    obtain ⟨hop, -⟩ := hrun hp
    rw [advance_run (hphase ▸ hp) (hop ▸ ho)]
    exact exec_matched hst (fun _ => ho) hi

/-- A move that keeps the phase ends no operation, so it has no response to match. -/
theorem matched_of_phase_kept {s s' t' : State} (hst : Alike s' t') (hp : s'.phase = s.phase) :
    MatchedBy s s' (.next t') :=
  ⟨t', rfl, hst, fun hrun hidle => by simp [hp, hrun] at hidle⟩

theorem takeInput_matched {m : Input} {s t s' : State} (hst : Alike s t) (hm : ∀ r, m ≠ .read r)
    (h : takeInput m s = .next s') : MatchedBy s s' (takeInput m t) := by
  have ⟨hphase, hsrc, hsnk, hin, hrun⟩ := hst
  cases m with
  | wait => exact advance_matched hst h
  | awaitIdle => cases h; exact matched_of_phase_kept hst rfl
  | command w =>
    cases hp : s.phase with
    | idle =>
      simp only [takeInput, offer, hp, ← hphase] at h ⊢
      exact exec_matched hst (by simp [hp]) h
    | run =>
      simp only [takeInput, offer, hp, ← hphase] at h ⊢
      exact advance_matched hst h
  | read r => exact absurd rfl (hm r)
  | reset =>
    cases h
    exact ⟨_, rfl, (alike_idle_iff rfl).2 ⟨rfl, hsrc, hsnk, hin⟩, fun _ _ => ⟨rfl, rfl, rfl⟩⟩
  | attachSource src => cases h; exact matched_of_phase_kept ⟨hphase, rfl, hsnk, hin, hrun⟩ rfl
  | attachSink snk => cases h; exact matched_of_phase_kept ⟨hphase, hsrc, rfl, hin, hrun⟩ rfl
  | presentSink =>
    cases h
    exact matched_of_phase_kept ⟨hphase, by simp [hsnk], hsnk, hin, hrun⟩ rfl

/-- Settles O60: alike states take the same move. -/
theorem earlierOperationsLeaveNoTrace : Obligations.EarlierOperationsLeaveNoTrace := by
  intro s t s' hst hread h
  have ⟨hphase, hsrc, hsnk, hin, hrun⟩ := hst
  suffices hm : MatchedBy s s' (step t) by
    obtain ⟨t', ht', halike, hresp⟩ := hm
    exact ⟨t', ht', halike, fun hp hp' _ => hresp hp hp'⟩
  cases hs : s.inputs with
  | nil =>
    rw [step_of_no_move hs] at h
    rw [step_of_no_move (hin ▸ hs)]
    exact advance_matched hst h
  | cons m rest =>
    by_cases hw : m = .awaitIdle ∧ s.phase = .run
    · obtain ⟨rfl, hp⟩ := hw
      rw [step_of_awaitIdle_run hs hp] at h
      rw [step_of_awaitIdle_run (hin ▸ hs) (hphase ▸ hp)]
      exact advance_matched hst h
    · have hm : m = .awaitIdle → s.phase = .idle := fun e => by cases hp : s.phase <;> simp_all
      rw [step_of_move hs hm] at h
      rw [step_of_move (hin ▸ hs) (hphase ▸ hm)]
      exact takeInput_matched (s := { s with inputs := rest }) ⟨hphase, hsrc, hsnk, rfl, hrun⟩
        (ne_read_of_nextIsRead hread hs) h

end Sys2Proof.Machine
end

section
/-! PROOF. The channels as an operation meets them: their answers, silence, and the two connections that stand against an
operation (20_memory.md R31 to R33, R42, R43, R47; 93_implementation_defined.md U7). -/

namespace Sys2Proof.Machine

/-- Settles O47. -/
theorem sourceYieldsEachByteOnce : Obligations.SourceYieldsEachByteOnce :=
  fun _ _ _ => ⟨fun h => by simpa using Source.answer_unread h, fun h => by simpa using Source.answer_unread h⟩

/-- Settles O48. -/
theorem sinkAppendsOrKeeps : Obligations.SinkAppendsOrKeeps :=
  fun _ _ _ => ⟨fun h => by simpa using Sink.answer_data h, fun h => by simpa using Sink.answer_data h⟩

theorem Source.answer_reference_lt (l : Link) {bytes : List Byte} {pos : Nat} (h : pos < bytes.length) :
    Source.answer ⟨l, .reference bytes pos⟩ = some (.byte bytes[pos], ⟨l, .reference bytes (pos + 1)⟩) := by
  simp [Source.answer, List.getElem?_eq_getElem h]

theorem Source.answer_reference_end (l : Link) {bytes : List Byte} {pos : Nat} (h : bytes.length ≤ pos) :
    Source.answer ⟨l, .reference bytes pos⟩ = some (.endOfInput, ⟨l, .reference bytes pos⟩) := by
  simp [Source.answer, List.getElem?_eq_none h]

theorem Sink.answer_script_fst (l : Link) (a : SnkAnswer) (as : List SnkAnswer) (data : List Byte) (b : Byte) :
    (Sink.answer ⟨l, .script (a :: as), data⟩ b).map Prod.fst = some a := by
  cases a <;> rfl

/-- Settles O49: the reference channels bound by bound, the scripted ones by their first answer. -/
theorem referenceChannelsAnswer : Obligations.ReferenceChannelsAnswer :=
  ⟨fun l _ _ h => Source.answer_reference_lt l h, fun l _ _ h => Source.answer_reference_end l h,
    fun _ _ _ => rfl, fun _ _ _ _ => rfl, fun _ _ _ => rfl, Sink.answer_script_fst⟩

/-- Settles O19: of each operation's frame, the channel that is not its own. -/
theorem eachOperationHasOneChannel : Obligations.EachOperationHasOneChannel := by
  refine fun s t => ⟨fun v h => ?_, fun v h => ?_, fun h => ?_, fun h => ?_⟩
  · obtain ⟨-, -, hsource, -⟩ := encoderFrame _ v s t (.inl rfl) h
    exact hsource
  · obtain ⟨-, -, hsource, -⟩ := encoderFrame _ v s t (.inr rfl) h
    exact hsource
  · obtain ⟨-, hsink, -⟩ := decoderFrame _ s t (.inl rfl) h
    exact hsink
  · obtain ⟨-, hsink, -⟩ := decoderFrame _ s t (.inr rfl) h
    exact hsink

theorem Source.answer_silent {src : Source} (h : src.behaviour = .script []) : src.answer = none := by
  simp [Source.answer, h]

theorem Sink.answer_silent {snk : Sink} (h : snk.behaviour = .script []) (b : Byte) : snk.answer b = none := by
  simp [Sink.answer, h]

/-- Settles O12: the wait of either kind of beat. -/
theorem unansweredRequestWaits : Obligations.UnansweredRequestWaits := by
  refine fun s i v hp ho => ⟨fun hi hl hsilent ⟨r, hr⟩ => ?_, fun hi hl hsilent => ?_⟩
  · exact (exec_encoder_run_iff hi hp ho).2 ⟨hl, .waits hr (Sink.answer_silent hsilent _)⟩
  · exact (exec_decoder_run_iff hi hp ho).2 ⟨hl, .waits (Source.answer_silent hsilent)⟩

/-- An encoder whose sink has an obstacle is refused, as a command and at every beat that has a byte to offer. -/
theorem exec_encoder_refused {i : Instr} {v : Value} {s : State} {f : Refusal} (hi : i = .encu v ∨ i = .encs v)
    (hs : s.phase = .idle ∨ s.opsel = .holds i.op ∧ ∃ r, s.rem = .holds r) (hl : s.sink.link.obstacle = some f) :
    exec i s = .refused f := by
  cases hp : s.phase with
  | idle => simp [exec_encoder hi, operate, accept, hp, hl]
  | run =>
    obtain hidle | ⟨ho, r, hr⟩ := hs
    · simp [hp] at hidle
    · simp [exec_encoder_beat hi hp ho, encoderBeat, memWrite, hr, hl]

/-- A decoder whose source has an obstacle is refused, as a command and at every beat. -/
theorem exec_decoder_refused {i : Instr} {s : State} {f : Refusal} (hi : i = .decu ∨ i = .decs)
    (hs : s.phase = .idle ∨ s.opsel = .holds i.op) (hl : s.source.link.obstacle = some f) :
    exec i s = .refused f := by
  cases hp : s.phase with
  | idle => simp [exec_decoder hi, operate, accept, hp, hl]
  | run =>
    obtain hidle | ho := hs
    · simp [hp] at hidle
    · simp [exec_decoder_beat hi hp ho, decoderBeat, memRead, hl]

/-- Settles O50: each of the two connections is an obstacle with its own name. -/
theorem sharedChannelIsRefused : Obligations.SharedChannelIsRefused := by
  refine fun s v => ⟨fun i hi hs => ⟨fun hl => ?_, fun hl => ?_⟩, fun i hi hs => ⟨fun hl => ?_, fun hl => ?_⟩⟩
  · exact exec_encoder_refused hi hs (by rw [hl, obstacle_shared])
  · exact exec_encoder_refused hi hs (by rw [hl, obstacle_absent])
  · exact exec_decoder_refused hi hs (by rw [hl, obstacle_shared])
  · exact exec_decoder_refused hi hs (by rw [hl, obstacle_absent])

end Sys2Proof.Machine
end

section
/-! PROOF. The minimal sequences from their first byte on: how long they are, and that what follows the byte an encoder offers
is the sequence of what it leaves in `REM` (30_encoding.md R59; 40_unsigned_encoder.md R71, 42_signed_encoder.md R91). -/

namespace Sys2Proof.Machine

namespace Wire

theorem bitlen_le_iff (v : Value) (k : Nat) : bitlen v ≤ k ↔ v.toNat < 2 ^ k := by
  unfold bitlen
  split
  · next h => simp [h]
  · next h =>
    have hne : v.toNat ≠ 0 := fun e => h (BitVec.eq_of_toNat_eq e)
    rw [Nat.succ_le_iff, Nat.log2_lt hne]

/-- The minimal unsigned length is the least number of groups that holds the value (R59). -/
theorem unsignedLength_le_iff (v : Value) {n : Nat} (hn : 1 ≤ n) : unsignedLength v ≤ n ↔ v.toNat < 2 ^ (7 * n) := by
  rw [← bitlen_le_iff, unsignedLength]
  omega

theorem fitsSigned_iff (v : Value) (n : Nat) :
    fitsSigned v n = true ↔ -(2 : Int) ^ (7 * n - 1) ≤ v.toInt ∧ v.toInt < 2 ^ (7 * n - 1) := by
  simp [fitsSigned]

/-- What fits some groups fits more. -/
theorem fitsSigned_mono {v : Value} {m n : Nat} (hmn : m ≤ n) (h : fitsSigned v m = true) : fitsSigned v n = true := by
  have hpow : (2 : Int) ^ (7 * m - 1) ≤ 2 ^ (7 * n - 1) := pow_le_pow_right₀ (by decide) (by omega)
  rw [fitsSigned_iff] at h ⊢
  omega

theorem fitsSigned_ten (v : Value) : fitsSigned v 10 = true := by
  have hlo := BitVec.le_toInt v
  have hhi := BitVec.toInt_lt (x := v)
  rw [fitsSigned_iff]
  omega

/-- The minimal signed length is a number of groups that holds the value, and no smaller one does (R59). -/
theorem signedLength_spec (v : Value) :
    1 ≤ signedLength v ∧ signedLength v ≤ 10 ∧ fitsSigned v (signedLength v) = true ∧
      ∀ m, 1 ≤ m → m < signedLength v → fitsSigned v m = false := by
  obtain ⟨n, hn⟩ : ∃ n, (List.range' 1 10).find? (fitsSigned v) = some n :=
    Option.isSome_iff_exists.1 (List.find?_isSome.2 ⟨10, by decide, fitsSigned_ten v⟩)
  obtain ⟨hfits, hmem, hleast⟩ := List.find?_range'_eq_some.1 hn
  rw [List.mem_range'_1] at hmem
  rw [signedLength, hn, Option.getD_some]
  exact ⟨hmem.1, by omega, hfits, by simpa using hleast⟩

theorem signedLength_le_iff (v : Value) {n : Nat} (hn : 1 ≤ n) : signedLength v ≤ n ↔ fitsSigned v n = true := by
  obtain ⟨-, -, hfits, hleast⟩ := signedLength_spec v
  refine ⟨fun h => fitsSigned_mono h hfits, fun h => ?_⟩
  by_contra hlt
  simp [hleast n hn (by omega)] at h

/-- A length of more than one group is one more than another where they are bounded alike, one group apart. -/
theorem length_eq_succ {a b : Nat} (hb : 1 ≤ b) (h1 : ¬ a ≤ 1) (h : ∀ n, 1 ≤ n → (a ≤ n + 1 ↔ b ≤ n)) :
    a = b + 1 := by
  have := (h b hb).2 le_rfl
  have := (h (a - 1) (by omega)).1 (by omega)
  omega

theorem one_le_unsignedLength (v : Value) : 1 ≤ unsignedLength v := le_max_left ..

theorem unsignedLength_of_last {v : Value} (h : moreFlag v = false) : unsignedLength v = 1 := by
  have hlt : ¬ 128 ≤ v.toNat := fun hge => by simp [(moreFlag_iff v).2 hge] at h
  exact le_antisymm ((unsignedLength_le_iff v le_rfl).2 (by omega)) (one_le_unsignedLength v)

theorem unsignedLength_of_more {v : Value} (h : moreFlag v = true) :
    unsignedLength v = unsignedLength (encuRest v) + 1 := by
  have hge := (moreFlag_iff v).1 h
  refine length_eq_succ (one_le_unsignedLength _) ?_ fun n hn => ?_
  · rw [unsignedLength_le_iff v le_rfl]
    omega
  · rw [unsignedLength_le_iff v (by omega), unsignedLength_le_iff _ hn, encuRest, lsr64_toNat,
      Nat.div_lt_iff_lt_mul (by decide), ← pow_add, mul_add]

theorem signedLength_of_done {v : Value} (h : doneFlag v = true) : signedLength v = 1 := by
  obtain ⟨hone, -⟩ := signedLength_spec v
  obtain ⟨hlo, hhi⟩ := (doneFlag_iff v).1 h
  exact le_antisymm ((signedLength_le_iff v le_rfl).2 ((fitsSigned_iff v 1).2 (by omega))) hone

theorem encsRest_of_more {v : Value} (h : doneFlag v = false) : encsRest v = asr64 v 7 := by
  simp [encsRest, h, asr64_asr64]

theorem signedLength_of_more {v : Value} (h : doneFlag v = false) :
    signedLength v = signedLength (encsRest v) + 1 := by
  have hne : ¬ (-64 ≤ v.toInt ∧ v.toInt ≤ 63) := fun hv => by simp [(doneFlag_iff v).2 hv] at h
  obtain ⟨hone, -⟩ := signedLength_spec (encsRest v)
  refine length_eq_succ hone ?_ fun n hn => ?_
  · rw [signedLength_le_iff v le_rfl, fitsSigned_iff]
    omega
  · have hpow : (2 : Int) ^ (7 * (n + 1) - 1) = 2 ^ 7 * 2 ^ (7 * n - 1) := by rw [← pow_add]; congr 1; omega
    rw [signedLength_le_iff v (by omega), signedLength_le_iff _ hn, fitsSigned_iff, fitsSigned_iff, hpow,
      encsRest_of_more h, asr64_toInt]
    omega

end Wire

/-- The minimal sequence of `v` for encoder `i`. -/
def sequenceOf (i : Instr) (v : Value) : List Byte :=
  if i.op = 0b00#2 then Wire.encodeUnsigned v else Wire.encodeSigned v

/-- `n` bytes with the payloads `p`, the continuation flag set in all but the last. -/
def groupBytes (n : Nat) (p : Nat → Payload) : List Byte :=
  (List.range n).map fun j => wireByte (decide (j + 1 < n)) (p j)

theorem groupBytes_one (p : Nat → Payload) : groupBytes 1 p = [wireByte false (p 0)] := rfl

theorem groupBytes_succ {n : Nat} (hn : 1 ≤ n) (p : Nat → Payload) :
    groupBytes (n + 1) p = wireByte true (p 0) :: groupBytes n fun j => p (j + 1) := by
  have hpos : 0 < n := hn
  simp [groupBytes, List.range_succ_eq_map, hpos, Function.comp_def]

theorem encodeUnsigned_eq_groupBytes (v : Value) :
    Wire.encodeUnsigned v = groupBytes (Wire.unsignedLength v) fun j => v.extractLsb' (7 * j) 7 := rfl

theorem encodeSigned_eq_groupBytes (v : Value) :
    Wire.encodeSigned v = groupBytes (Wire.signedLength v) fun j => low7Value (asr64 v (7 * j)) := rfl

theorem extractLsb'_encuRest (v : Value) (j : Nat) : (encuRest v).extractLsb' (7 * j) 7 = v.extractLsb' (7 * (j + 1)) 7 := by
  ext k hk
  have hbit : 7 + (7 * j + k) = 7 * (j + 1) + k := by omega
  simp [encuRest, lsr64, hbit]

theorem encodeUnsigned_eq (v : Value) :
    Wire.encodeUnsigned v = encuByte v :: if moreFlag v then Wire.encodeUnsigned (encuRest v) else [] := by
  rw [encodeUnsigned_eq_groupBytes, encuByte]
  cases hmore : moreFlag v with
  | false => rw [Wire.unsignedLength_of_last hmore, groupBytes_one]; rfl
  | true =>
    simp only [Wire.unsignedLength_of_more hmore, groupBytes_succ (Wire.one_le_unsignedLength _),
      ← extractLsb'_encuRest]
    rfl

theorem encodeSigned_eq (v : Value) :
    Wire.encodeSigned v = encsByte v :: if doneFlag v then [] else Wire.encodeSigned (encsRest v) := by
  rw [encodeSigned_eq_groupBytes, encsByte]
  cases hdone : doneFlag v with
  | true => rw [Wire.signedLength_of_done hdone, groupBytes_one]; simp [asr64]
  | false =>
    obtain ⟨hpos, -⟩ := Wire.signedLength_spec (encsRest v)
    have hshift (j : Nat) : asr64 v (7 * (j + 1)) = asr64 (encsRest v) (7 * j) := by
      rw [Wire.encsRest_of_more hdone, asr64_asr64, mul_add, add_comm]
    simp only [Wire.signedLength_of_more hdone, groupBytes_succ hpos, hshift, ← encodeSigned_eq_groupBytes]
    simp [asr64]

/-- The sequence of a value is the byte its encoder offers first, followed by the sequence of what is left. -/
theorem sequenceOf_eq (i : Instr) (v : Value) :
    sequenceOf i v = encoderByte i v :: if encoderLast i v then [] else sequenceOf i (encoderRest i v) := by
  unfold sequenceOf encoderByte encoderLast encoderRest
  split
  · rw [encodeUnsigned_eq]
    cases moreFlag v <;> rfl
  · exact encodeSigned_eq v

theorem sequenceOf_of_not_last {i : Instr} {v : Value} (h : encoderLast i v = false) :
    sequenceOf i v = encoderByte i v :: sequenceOf i (encoderRest i v) := by
  rw [sequenceOf_eq, h, if_neg Bool.false_ne_true]

theorem sequenceOf_of_last {i : Instr} {v : Value} (h : encoderLast i v = true) :
    sequenceOf i v = [encoderByte i v] := by
  rw [sequenceOf_eq, if_pos h]

theorem not_last_of_one_lt {i : Instr} {v : Value} (h : 1 < (sequenceOf i v).length) : encoderLast i v = false := by
  by_contra hne
  rw [sequenceOf_of_last (by simpa using hne)] at h
  simp at h

theorem sequenceOf_length_le (i : Instr) (v : Value) : (sequenceOf i v).length ≤ 10 := by
  unfold sequenceOf
  split
  · rw [Wire.encodeUnsigned, List.length_map, List.length_range, Wire.unsignedLength_le_iff v (by decide)]
    exact v.isLt.trans (by decide)
  · obtain ⟨-, hle, -⟩ := Wire.signedLength_spec v
    simpa [Wire.encodeSigned] using hle

end Sys2Proof.Machine
end

section
/-! PROOF. The beats of a whole operation: one induction for all that is said of operations that end (92_eei_decisions.md D3). -/

namespace Sys2Proof.Machine

theorem beats_idle {s : State} (i : Instr) (n : Nat) (h : s.phase = .idle) : beats i n s = .next s := by
  cases n <;> simp [beats, h]

theorem beats_succ_iff {i : Instr} {n : Nat} {s t : State} (hp : s.phase = .run) :
    beats i (n + 1) s = .next t ↔ ∃ s', exec i s = .next s' ∧ beats i n s' = .next t := by
  simp only [beats, hp]
  cases exec i s <;> simp

theorem perform_iff {i : Instr} {s t : State} :
    perform i s = .next t ↔ ∃ s', exec i s = .next s' ∧ beats i Config.MAXLEN s' = .next t := by
  simp only [perform, performIn]
  cases exec i s <;> simp

/-- An encoder's operation is its issue step and then its beats. -/
theorem perform_encoder_iff {i : Instr} {v : Value} {s t : State} (hi : i = .encu v ∨ i = .encs v)
    (hp : s.phase = .idle) :
    perform i s = .next t ↔
      s.sink.link = .exclusive ∧ beats i Config.MAXLEN ((s.issueEncoder v).launch i.op) = .next t := by
  simp [perform_iff, exec_encoder_idle_iff hi hp, and_assoc]

/-- A decoder's operation is its issue step and then its beats. -/
theorem perform_decoder_iff {i : Instr} {s t : State} (hi : i = .decu ∨ i = .decs) (hp : s.phase = .idle) :
    perform i s = .next t ↔
      s.source.link = .exclusive ∧ beats i Config.MAXLEN (s.issueDecoder.launch i.op) = .next t := by
  simp [perform_iff, exec_decoder_idle_iff hi hp, and_assoc]

/-- What holds before the beat that ends an operation, and before every beat after which it holds, holds before them all. -/
theorem beats_end {i : Instr} {t : State} {P : State → Prop} (ht : t.phase = .idle)
    (ends : ∀ s, s.phase = .run → exec i s = .next t → P s)
    (goesOn : ∀ s s', s.phase = .run → s'.phase = .run → exec i s = .next s' → P s' → P s) (n : Nat) (s : State)
    (hp : s.phase = .run) (h : beats i n s = .next t) : P s := by
  induction n generalizing s with
  | zero =>
    cases h
    simp [hp] at ht
  | succ n ih =>
    obtain ⟨s', he, hb⟩ := (beats_succ_iff hp).1 h
    cases hp' : s'.phase with
    | idle =>
      rw [beats_idle i n hp'] at hb
      cases hb
      exact ends s hp he
    | run => exact goesOn s s' hp hp' he (ih s' hp' hb)

end Sys2Proof.Machine
end

section
/-! PROOF. What an encoder has written when it ends: the whole minimal sequence, or the bytes before the refused one
(20_memory.md R45, R46; 60_exceptions.md R134). -/

namespace Sys2Proof.Machine

/-- In `s` encoder `i` runs, with the value `r` left. -/
structure Encoding (i : Instr) (r : Value) (s : State) : Prop where
  phase : s.phase = .run
  opsel : s.opsel = .holds i.op
  rem : s.rem = .holds r

theorem encoding_issue (i : Instr) (v : Value) (s : State) : Encoding i v ((s.issueEncoder v).launch i.op) :=
  ⟨rfl, rfl, rfl⟩

/-- A beat after which the encoder runs on waits, or moves the first byte of the sequence it has left. -/
theorem Encoding.goesOn {i : Instr} {r : Value} {s t : State} (hs : Encoding i r s) (hm : EncoderMove i s t)
    (ht : t.phase = .run) :
    t = s ∨ ∃ r', Encoding i r' t ∧ sequenceOf i r = encoderByte i r :: sequenceOf i r' ∧
      t.sink.data = s.sink.data ++ [encoderByte i r] := by
  obtain ⟨hp, ho, hr⟩ := hs
  cases hm with
  | waits => exact .inl rfl
  | refused => simp at ht
  | goesOn hr' _ ha hlast =>
    obtain rfl := Reg.holds_unique hr' hr
    exact .inr ⟨_, ⟨hp, ho, rfl⟩, sequenceOf_of_not_last hlast, by simpa using Sink.answer_data ha⟩
  | completes => simp at ht

/-- The beat with which an encoder ends with `OK` moves all that is left of its sequence, its last byte. -/
theorem Encoding.ends_ok {i : Instr} {r : Value} {s t : State} (hs : Encoding i r s) (hm : EncoderMove i s t)
    (ht : t.phase = .idle) (hok : t.status = .holds 0) : t.sink.data = s.sink.data ++ sequenceOf i r := by
  obtain ⟨hp, ho, hr⟩ := hs
  cases hm with
  | waits => simp [hp] at ht
  | refused => simp [Status.code] at hok
  | goesOn => simp [hp] at ht
  | completes hr' _ ha hlast =>
    obtain rfl := Reg.holds_unique hr' hr
    rw [sequenceOf_of_last hlast]
    simpa using Sink.answer_data ha

section

variable {i : Instr} {v : Value} (hi : i = .encu v ∨ i = .encs v)
include hi

/-- The beats of an encoder that ends with `OK` append the sequence it has left. -/
theorem Encoding.beats_ok {n : Nat} {s t : State} {r : Value} (hs : Encoding i r s) (h : beats i n s = .next t)
    (ht : t.phase = .idle) (hok : t.status = .holds 0) : t.sink.data = s.sink.data ++ sequenceOf i r := by
  refine beats_end (P := fun s => ∀ r, Encoding i r s → t.sink.data = s.sink.data ++ sequenceOf i r) ht ?_ ?_ n s
    hs.phase h r hs
  · intro s hp he r hs
    obtain ⟨-, hm⟩ := (exec_encoder_run_iff hi hp hs.opsel).1 he
    exact hs.ends_ok hm ht hok
  · intro s s' hp hp' he ih r hs
    obtain ⟨-, hm⟩ := (exec_encoder_run_iff hi hp hs.opsel).1 he
    obtain rfl | ⟨r', hs', hseq, hdata⟩ := hs.goesOn hm hp'
    · exact ih r hs
    · rw [ih r' hs', hdata, hseq, List.append_assoc, List.singleton_append]

theorem perform_encoder_ok {s t : State} (hp : s.phase = .idle) (h : perform i s = .next t) (ht : t.phase = .idle)
    (hok : t.status = .holds 0) : t.sink.data = s.sink.data ++ sequenceOf i v :=
  (encoding_issue i v s).beats_ok hi ((perform_encoder_iff hi hp).1 h).2 ht hok

end

/-- A sink that refuses the next offer answers it with `NAK`. -/
theorem Sink.answer_of_refusesAfter_zero {snk : Sink} (b : Byte) (h : snk.refusesAfter 0 = true) :
    ∃ snk', snk.answer b = some (.nak, snk') := by
  obtain ⟨link, ⟨_ | cap⟩ | ⟨_ | ⟨_ | _, answers⟩⟩, data⟩ := snk <;> simp [Sink.refusesAfter] at h
  · exact ⟨_, if_neg h.not_lt⟩
  · exact ⟨_, rfl⟩

/-- A sink that refuses a later offer answers the next one with `ACK` and is one offer nearer to its refusal. -/
theorem Sink.answer_of_refusesAfter_succ {snk : Sink} {k : Nat} (b : Byte) (h : snk.refusesAfter (k + 1) = true) :
    ∃ snk', snk.answer b = some (.ack, snk') ∧ snk'.refusesAfter k = true := by
  obtain ⟨link, ⟨_ | cap⟩ | ⟨_ | ⟨_ | _, answers⟩⟩, data⟩ := snk <;>
    simp [Sink.refusesAfter, List.replicate_succ] at h
  · exact ⟨_, if_pos (show data.length < cap by omega), by simp [Sink.refusesAfter]; omega⟩
  · exact ⟨_, rfl, by simpa [Sink.refusesAfter] using h⟩

/-- An encoder's operation ended with `WRITE_ERROR` and `COUNT` `n`, and the sink holds `data`. -/
structure WriteRefused (data : List Byte) (n : BitVec 4) (t : State) : Prop where
  phase : t.phase = .idle
  status : t.status = .holds 3
  count : t.count = .holds n
  valOut : t.valOut = .noValue
  data : t.sink.data = data

section

variable {i : Instr} {v : Value} (hi : i = .encu v ∨ i = .encs v)
include hi

theorem Encoding.beats_succ {n : Nat} {s s' : State} {r : Value} (hs : Encoding i r s) (hl : s.sink.link = .exclusive)
    (hm : EncoderMove i s s') : beats i (n + 1) s = beats i n s' := by
  simp only [beats, hs.phase, (exec_encoder_run_iff hi hs.phase hs.opsel).2 ⟨hl, hm⟩]

/-- The beats of an encoder whose sink refuses the offer after `k` bytes append the first `k` bytes of what it has left. -/
theorem Encoding.beats_refused {n k : Nat} {s : State} {r : Value} {c : BitVec 4} (hs : Encoding i r s)
    (hc : s.cnt = .holds c) (hl : s.sink.link = .exclusive) (hk : k < (sequenceOf i r).length) (hn : k < n)
    (href : s.sink.refusesAfter k = true) :
    ∃ t, beats i n s = .next t ∧
      WriteRefused (s.sink.data ++ (sequenceOf i r).take k) (c + BitVec.ofNat 4 k) t := by
  induction k generalizing n s r c with
  | zero =>
    obtain ⟨snk, ha⟩ := Sink.answer_of_refusesAfter_zero (encoderByte i r) href
    obtain ⟨m, rfl⟩ := Nat.exists_eq_add_of_lt hn
    refine ⟨_, (hs.beats_succ hi hl (.refused hs.rem hc ha)).trans (beats_idle i _ rfl), rfl, rfl, ?_, rfl, ?_⟩
    · simp
    · simpa using Sink.answer_data ha
  | succ k ih =>
    obtain ⟨snk, ha, href'⟩ := Sink.answer_of_refusesAfter_succ (encoderByte i r) href
    obtain ⟨hl', -⟩ := Sink.answer_keeps ha
    have hdata : snk.data = s.sink.data ++ [encoderByte i r] := by simpa using Sink.answer_data ha
    have hlast := not_last_of_one_lt (show 1 < (sequenceOf i r).length by omega)
    have hseq := sequenceOf_of_not_last hlast
    obtain ⟨m, rfl⟩ := Nat.exists_eq_add_of_lt hn
    rw [hseq, List.length_cons] at hk
    obtain ⟨t, hb, ht⟩ := ih (n := k + 1 + m) (s := { s with sink := snk }.byteWritten c (encoderRest i r))
      ⟨hs.phase, hs.opsel, rfl⟩ rfl (hl'.trans hl) (by omega) (by omega) href'
    have hcount : c + BitVec.ofNat 4 (k + 1) = c + 1 + BitVec.ofNat 4 k := by
      rw [add_comm k, BitVec.ofNat_add, ← add_assoc]; rfl
    refine ⟨t, (hs.beats_succ hi hl (.goesOn hs.rem hc ha hlast)).trans hb, ?_⟩
    rw [hseq, List.take_succ_cons, hcount, ← List.singleton_append, ← List.append_assoc, ← hdata]
    exact ht

theorem perform_encoder_refused {k : Nat} {s : State} (hp : s.phase = .idle) (hl : s.sink.link = .exclusive)
    (hk : k < (sequenceOf i v).length) (href : s.sink.refusesAfter k = true) :
    ∃ t, perform i s = .next t ∧ WriteRefused (s.sink.data ++ (sequenceOf i v).take k) (BitVec.ofNat 4 k) t := by
  obtain ⟨t, hb, ht⟩ := (encoding_issue i v s).beats_refused hi rfl hl hk
    (hk.trans_le (sequenceOf_length_le i v)) href
  exact ⟨t, (perform_encoder_iff hi hp).2 ⟨hl, hb⟩, by simpa using ht⟩

end

/-- Settles O28: `k` accepted bytes, by induction on `k`. -/
theorem refusedWriteLeavesThePrefix : Obligations.RefusedWriteLeavesThePrefix := by
  intro i v bs s k h hp hl hk href
  obtain ⟨hi, rfl⟩ : (i = .encu v ∨ i = .encs v) ∧ bs = sequenceOf i v := by
    obtain ⟨rfl, rfl⟩ | ⟨rfl, rfl⟩ := h
    · exact ⟨.inl rfl, rfl⟩
    · exact ⟨.inr rfl, rfl⟩
  obtain ⟨t, ht, hidle, hstatus, hcount, hval, hdata⟩ := perform_encoder_refused hi hp hl hk href
  exact ⟨t, ht, hidle, hstatus, hcount, hval, hdata⟩

end Sys2Proof.Machine
end

section
/-! PROOF. A sequence byte by byte: what the bytes read so far stand for, and what the last byte makes of them
(30_encoding.md R56 to R63). -/

namespace Sys2Proof.Machine

theorem payloadSum_append (as bs : List Byte) :
    Wire.payloadSum (as ++ bs) = Wire.payloadSum as + Wire.payloadSum bs <<< (7 * as.length) := by
  induction as with
  | nil => simp [Wire.payloadSum]
  | cons a as ih =>
    rw [List.cons_append, Wire.payloadSum, Wire.payloadSum, ih, BitVec.shiftLeft_add_distrib, ← BitVec.shiftLeft_add,
      BitVec.add_assoc, List.length_cons, Nat.mul_succ]

theorem payloadSum_lt (bs : List Byte) : (Wire.payloadSum bs).toNat < 2 ^ (7 * bs.length) := by
  induction bs with
  | nil => decide
  | cons b bs ih =>
    have hb : ((low7 b).zeroExtend 64).toNat < 2 ^ 7 := by
      rw [BitVec.toNat_setWidth_of_le (by decide)]
      exact (low7 b).isLt
    have hshift : (Wire.payloadSum bs <<< 7).toNat ≤ (Wire.payloadSum bs).toNat * 2 ^ 7 := by
      rw [BitVec.toNat_shiftLeft, Nat.shiftLeft_eq]
      exact Nat.mod_le ..
    have hsum := Nat.mod_le (((low7 b).zeroExtend 64).toNat + (Wire.payloadSum bs <<< 7).toNat) (2 ^ 64)
    rw [Wire.payloadSum, BitVec.toNat_add, List.length_cons, Nat.mul_succ, pow_add]
    omega

/-- ORing a payload in above the bits of `a` adds it. -/
theorem or_payloadAt {a : Value} {k : Nat} (p : Payload) (ha : a.toNat < 2 ^ k) :
    a ||| payloadAt p k = a + payloadAt p k := by
  refine (BitVec.add_eq_or_of_and_eq_zero _ _ ?_).symm
  ext j hj
  have hlow (h : k ≤ j) : a[j] = false := by
    rw [BitVec.getElem_eq_testBit_toNat]
    exact Nat.testBit_lt_two_pow (ha.trans_le (Nat.pow_le_pow_right (by decide) h))
  by_cases h : k ≤ j
  · simp [hlow h]
  · simp [payloadAt, lsl64, Nat.lt_of_not_le h]

/-- `SHIFT` once the bytes `pre` have been read. -/
def shiftAfter (pre : List Byte) : BitVec 7 := BitVec.ofNat 7 (7 * pre.length)

theorem shiftAfter_toNat {pre : List Byte} (h : pre.length ≤ 9) : (shiftAfter pre).toNat = 7 * pre.length := by
  rw [shiftAfter, BitVec.toNat_ofNat, Nat.mod_eq_of_lt (by omega)]

theorem shiftAfter_append (pre : List Byte) (b : Byte) : shiftAfter (pre ++ [b]) = shiftAfter pre + 7 := by
  rw [shiftAfter, List.length_append, List.length_singleton, Nat.mul_succ, BitVec.ofNat_add]; rfl

theorem withPayload_payloadSum {pre : List Byte} (b : Byte) (h : pre.length ≤ 9) :
    withPayload (Wire.payloadSum pre) (shiftAfter pre) b = Wire.payloadSum (pre ++ [b]) := by
  rw [withPayload, shiftAfter_toNat h, or_payloadAt _ (payloadSum_lt pre), payloadSum_append]
  simp [Wire.payloadSum, payloadAt, lsl64]

/-- The sequences decoder `i` accepts. -/
def legalFor (i : Instr) (bs : List Byte) : Bool :=
  if i.op = 0b01#2 then Wire.legalUnsigned bs else Wire.legalSigned bs

/-- The value of a sequence for decoder `i`. -/
def valueFor (i : Instr) (bs : List Byte) : Value :=
  if i.op = 0b01#2 then Wire.unsignedValue bs else Wire.signedValue bs

/-- The bytes that pass the test of the 10th byte are the legal ones (R61, R62, R63). -/
theorem legal_of_tailPassed {i : Instr} {b : Byte} (hi : i = .decu ∨ i = .decs)
    (h : tailRejected (decoderTail i) b = false) : b = 0x00 ∨ i = .decu ∧ b = 0x01 ∨ i = .decs ∧ b = 0x7f := by
  obtain rfl | rfl := hi <;> revert b <;> decide

theorem legalFor_append {i : Instr} {pre : List Byte} {b : Byte} (hi : i = .decu ∨ i = .decs)
    (hpre : pre.all contFlag = true) (hlen : pre.length ≤ 9) (hb : contFlag b = false)
    (htail : pre.length = 9 → tailRejected (decoderTail i) b = false) : legalFor i (pre ++ [b]) = true := by
  have hmax : pre.length < Config.MAXLEN := Nat.lt_succ_of_le hlen
  have hseq : Wire.isSequence (pre ++ [b]) = true := by simp [Wire.isSequence, hpre, hb, hmax]
  have hlast (h9 : pre.length = 9) := legal_of_tailPassed hi (htail h9)
  obtain rfl | rfl := hi
  · have hgoal : (pre.length ≠ 9 ∨ b = 0x00) ∨ b = 0x01 := by grind
    simpa [legalFor, Instr.op, Wire.legalUnsigned, hseq] using hgoal
  · have hgoal : (pre.length ≠ 9 ∨ b = 0x00) ∨ b = 0x7f := by grind
    simpa [legalFor, Instr.op, Wire.legalSigned, hseq] using hgoal

theorem decodedValue_payloadSum (i : Instr) {pre : List Byte} (b : Byte) (h : pre.length ≤ 9) :
    decodedValue i (Wire.payloadSum pre) (shiftAfter pre) b = valueFor i (pre ++ [b]) := by
  rw [decodedValue, withPayload_payloadSum b h, shiftAfter_toNat h, decoderFinish, valueFor]
  simp [decuFinish, decsFinish, Wire.unsignedValue, Wire.signedValue, signMask, Nat.mul_succ]

end Sys2Proof.Machine
end

section
/-! PROOF. What a decoder has read when it ends with `OK`: exactly one legal sequence (20_memory.md R46; 60_exceptions.md
R134). -/

namespace Sys2Proof.Machine

/-- In `s` decoder `i` runs and has read the bytes `pre`, none of them a last one (R81, R101). -/
structure Decoding (i : Instr) (pre : List Byte) (s : State) : Prop where
  phase : s.phase = .run
  opsel : s.opsel = .holds i.op
  acc : s.acc = .holds (Wire.payloadSum pre)
  shift : s.shift = .holds (shiftAfter pre)
  cnt : s.cnt = .holds (BitVec.ofNat 4 pre.length)
  more : pre.all contFlag = true
  length : pre.length ≤ 9

theorem decoding_issue (i : Instr) (s : State) : Decoding i [] (s.issueDecoder.launch i.op) :=
  ⟨rfl, rfl, rfl, rfl, rfl, rfl, by decide⟩

/-- The response of decoder `i` that has read the legal sequence `bs`. -/
structure Decoded (i : Instr) (bs : List Byte) (t : State) : Prop where
  legal : legalFor i bs = true
  count : t.count = .holds (BitVec.ofNat 4 bs.length)
  valOut : t.valOut = .holds (valueFor i bs)

theorem ofNat_length_append (pre : List Byte) (b : Byte) :
    BitVec.ofNat 4 (pre ++ [b]).length = BitVec.ofNat 4 pre.length + 1 := by
  rw [List.length_append, List.length_singleton, BitVec.ofNat_add]; rfl

/-- A beat after which the decoder runs on waits, or reads a byte that is not a last one. -/
theorem Decoding.goesOn {i : Instr} {pre : List Byte} {s t : State} (hs : Decoding i pre s) (hm : DecoderMove i s t)
    (ht : t.phase = .run) : t = s ∨ ∃ b, Decoding i (pre ++ [b]) t ∧ s.source.unread = b :: t.source.unread := by
  obtain ⟨hp, ho, hacc, hshift, hcnt, hmore, hlen⟩ := hs
  have hk := shiftAfter_toNat hlen
  cases hm with
  | waits => exact .inl rfl
  | ends => simp at ht
  | overflows => simp at ht
  | @goesOn c src b k a hc ha hk' hacc' hle htail hcont =>
    obtain rfl := Reg.holds_unique hc hcnt
    obtain rfl := Reg.holds_unique hk' hshift
    obtain rfl := Reg.holds_unique hacc' hacc
    have hne : pre.length ≠ 9 := fun h9 => by simpa [tailRejected_of_contFlag _ hcont] using htail (by omega)
    refine .inr ⟨b, ⟨hp, ho, ?_, ?_, ?_, by simp [hmore, hcont], ?_⟩, by simpa using Source.answer_unread ha⟩
    · exact congrArg Reg.holds (withPayload_payloadSum b hlen)
    · exact congrArg Reg.holds (shiftAfter_append pre b).symm
    · exact congrArg Reg.holds (ofNat_length_append pre b).symm
    · rw [List.length_append, List.length_singleton]; omega
  | completes => simp at ht

/-- The beat with which a decoder ends with `OK` reads the last byte of a legal sequence. -/
theorem Decoding.ends_ok {i : Instr} {pre : List Byte} {s t : State} (hi : i = .decu ∨ i = .decs)
    (hs : Decoding i pre s) (hm : DecoderMove i s t) (ht : t.phase = .idle) (hok : t.status = .holds 0) :
    ∃ b, Decoded i (pre ++ [b]) t ∧ s.source.unread = b :: t.source.unread := by
  obtain ⟨hp, ho, hacc, hshift, hcnt, hmore, hlen⟩ := hs
  have hk := shiftAfter_toNat hlen
  cases hm with
  | waits => simp [hp] at ht
  | ends => simp [Status.code] at hok
  | overflows => simp [Status.code] at hok
  | goesOn => simp [hp] at ht
  | @completes c src b k a hc ha hk' hacc' hle htail hcont =>
    obtain rfl := Reg.holds_unique hc hcnt
    obtain rfl := Reg.holds_unique hk' hshift
    obtain rfl := Reg.holds_unique hacc' hacc
    refine ⟨b, ⟨legalFor_append hi hmore hlen hcont fun h9 => htail (by omega), ?_, ?_⟩,
      by simpa using Source.answer_unread ha⟩
    · exact congrArg Reg.holds (ofNat_length_append pre b).symm
    · exact congrArg Reg.holds (decodedValue_payloadSum i b hlen)

section

variable {i : Instr} (hi : i = .decu ∨ i = .decs)
include hi

/-- The beats of a decoder that ends with `OK` read the rest of one legal sequence. -/
theorem Decoding.beats_ok {n : Nat} {pre : List Byte} {s t : State} (hs : Decoding i pre s)
    (h : beats i n s = .next t) (ht : t.phase = .idle) (hok : t.status = .holds 0) :
    ∃ bs, Decoded i (pre ++ bs) t ∧ s.source.unread = bs ++ t.source.unread := by
  refine beats_end (P := fun s => ∀ pre, Decoding i pre s →
    ∃ bs, Decoded i (pre ++ bs) t ∧ s.source.unread = bs ++ t.source.unread) ht ?_ ?_ n s hs.phase h pre hs
  · intro s hp he pre hs
    obtain ⟨-, hm⟩ := (exec_decoder_run_iff hi hp hs.opsel).1 he
    obtain ⟨b, hdone, hunread⟩ := hs.ends_ok hi hm ht hok
    exact ⟨[b], hdone, hunread⟩
  · intro s s' hp hp' he ih pre hs
    obtain ⟨-, hm⟩ := (exec_decoder_run_iff hi hp hs.opsel).1 he
    obtain rfl | ⟨b, hs', hunread⟩ := hs.goesOn hm hp'
    · exact ih pre hs
    · obtain ⟨bs, hdone, hrest⟩ := ih _ hs'
      exact ⟨b :: bs, by simpa using hdone, by rw [hunread, hrest, List.cons_append]⟩

theorem perform_decoder_ok {s t : State} (hp : s.phase = .idle) (h : perform i s = .next t) (ht : t.phase = .idle)
    (hok : t.status = .holds 0) : ∃ bs, Decoded i bs t ∧ s.source.unread = bs ++ t.source.unread :=
  (decoding_issue i s).beats_ok hi ((perform_decoder_iff hi hp).1 h).2 ht hok

end

/-- Settles O27: of each operation, what its beats moved on the way to `OK`. -/
theorem okMeansAWholeSequence : Obligations.OkMeansAWholeSequence := by
  intro s t hp ht hok
  refine ⟨fun v h => ?_, fun v h => ?_, fun h => ?_, fun h => ?_⟩
  · exact perform_encoder_ok (i := .encu v) (.inl rfl) hp h ht hok
  · exact perform_encoder_ok (i := .encs v) (.inr rfl) hp h ht hok
  · obtain ⟨bs, ⟨hlegal, hcount, hval⟩, hunread⟩ := perform_decoder_ok (.inl rfl) hp h ht hok
    exact ⟨bs, hlegal, hunread, hcount, hval⟩
  · obtain ⟨bs, ⟨hlegal, hcount, hval⟩, hunread⟩ := perform_decoder_ok (.inr rfl) hp h ht hok
    exact ⟨bs, hlegal, hunread, hcount, hval⟩

end Sys2Proof.Machine
end

section
/-! PROOF. A source that yields given bytes, byte by byte (20_memory.md R31). -/

namespace Sys2Proof.Machine

@[simp] theorem Source.advanced_zero (src : Source) : src.advanced 0 = src := by
  obtain ⟨link, ⟨bytes, pos⟩ | answers⟩ := src <;> simp [Source.advanced]

theorem Source.advanced_advanced (src : Source) (m n : Nat) : (src.advanced m).advanced n = src.advanced (m + n) := by
  obtain ⟨link, ⟨bytes, pos⟩ | answers⟩ := src <;> simp [Source.advanced, Nat.add_assoc]

@[simp] theorem Source.advanced_link (src : Source) (n : Nat) : (src.advanced n).link = src.link := by
  obtain ⟨link, ⟨bytes, pos⟩ | answers⟩ := src <;> rfl

@[simp] theorem Source.yields_nil (src : Source) : src.yields [] = true := by
  obtain ⟨link, ⟨bytes, pos⟩ | answers⟩ := src <;> simp [Source.yields]

/-- A source that will yield `b` and then `bs` answers `b` now and will yield `bs` then. -/
theorem Source.yields_cons {src : Source} {b : Byte} {bs : List Byte} (h : src.yields (b :: bs) = true) :
    src.answer = some (.byte b, src.advanced 1) ∧ (src.advanced 1).yields bs = true := by
  obtain ⟨link, ⟨bytes, pos⟩ | answers⟩ := src
  · have hlt : pos < bytes.length := by
      by_contra hge
      simp [Source.yields, List.drop_eq_nil_of_le (Nat.le_of_not_lt hge)] at h
    simp only [Source.yields, List.drop_eq_getElem_cons hlt, List.isPrefixOf_cons_cons, Bool.and_eq_true,
      beq_iff_eq] at h
    obtain ⟨rfl, hrest⟩ := h
    exact ⟨Source.answer_reference_lt link hlt, hrest⟩
  · cases answers with
    | nil => simp [Source.yields] at h
    | cons answer answers =>
      simp only [Source.yields, List.map_cons, List.isPrefixOf_cons_cons, Bool.and_eq_true, beq_iff_eq] at h
      obtain ⟨rfl, hrest⟩ := h
      exact ⟨rfl, hrest⟩

/-- What a source yields after its first bytes. -/
theorem Source.yields_append {src : Source} {as bs : List Byte} (h : src.yields (as ++ bs) = true) :
    src.yields as = true ∧ (src.advanced as.length).yields bs = true := by
  obtain ⟨link, ⟨bytes, pos⟩ | answers⟩ := src <;>
    simp only [Source.yields, Source.advanced, List.isPrefixOf_iff_prefix, List.map_append] at h ⊢
  · obtain ⟨rest, hrest⟩ := h
    refine ⟨⟨bs ++ rest, by simp [← hrest]⟩, ⟨rest, ?_⟩⟩
    rw [← List.drop_drop, ← hrest, List.append_assoc, List.drop_left]
  · obtain ⟨rest, rfl⟩ := h
    refine ⟨⟨bs.map .byte ++ rest, by simp⟩, ⟨rest, ?_⟩⟩
    rw [List.append_assoc, List.drop_left' (List.length_map _)]

end Sys2Proof.Machine
end

section
/-! PROOF. The beats of a decoder over the bytes that its source yields: the loop invariant of
41_unsigned_decoder.md R81 and 43_signed_decoder.md R101. -/

namespace Sys2Proof.Machine

/-- Before a byte at one of the first nine positions that is not a last one, a decoder reads it and runs on. -/
theorem Decoding.read {i : Instr} {pre : List Byte} {s : State} {b : Byte} {src : Source} (hs : Decoding i pre s)
    (ha : s.source.answer = some (.byte b, src)) (hb : contFlag b = true) (hlen : pre.length < 9) :
    ∃ t, DecoderMove i s t ∧ Decoding i (pre ++ [b]) t ∧ t.source = src := by
  obtain ⟨hp, ho, hacc, hshift, hcnt, hmore, -⟩ := hs
  have hk := shiftAfter_toNat hlen.le
  refine ⟨_, .goesOn hcnt ha hshift hacc (by omega) (fun h63 => by omega) hb,
    ⟨hp, ho, ?_, ?_, ?_, by simp [hmore, hb], by simpa using hlen⟩, rfl⟩
  · exact congrArg Reg.holds (withPayload_payloadSum b hlen.le)
  · exact congrArg Reg.holds (shiftAfter_append pre b).symm
  · exact congrArg Reg.holds (ofNat_length_append pre b).symm

section

variable {i : Instr} (hi : i = .decu ∨ i = .decs)
include hi

theorem Decoding.beats_succ {n : Nat} {pre : List Byte} {s s' : State} (hs : Decoding i pre s)
    (hl : s.source.link = .exclusive) (hm : DecoderMove i s s') : beats i (n + 1) s = beats i n s' := by
  simp only [beats, hs.phase, (exec_decoder_run_iff hi hs.phase hs.opsel).2 ⟨hl, hm⟩]

/-- Over bytes none of which is a last one, a decoder takes one beat a byte and keeps its loop invariant. -/
theorem Decoding.beats_read {pre bs : List Byte} {s : State} (hs : Decoding i pre s) (hl : s.source.link = .exclusive)
    (hy : s.source.yields bs = true) (hbs : bs.all contFlag = true) (hlen : pre.length + bs.length ≤ 9) :
    ∃ t, Decoding i (pre ++ bs) t ∧ t.source = s.source.advanced bs.length ∧
      ∀ n, beats i (bs.length + n) s = beats i n t := by
  induction bs generalizing pre s with
  | nil => exact ⟨s, by simpa using hs, by simp, fun n => by simp⟩
  | cons b bs ih =>
    rw [List.length_cons] at hlen
    rw [List.all_cons, Bool.and_eq_true] at hbs
    obtain ⟨hb, hbs⟩ := hbs
    obtain ⟨ha, hy⟩ := Source.yields_cons hy
    obtain ⟨s', hm, hs', hsrc⟩ := hs.read ha hb (by omega)
    obtain ⟨t, ht, htsrc, hbeats⟩ := ih hs' (by simp [hsrc, hl]) (hsrc ▸ hy) hbs
      (by rw [List.length_append, List.length_singleton]; omega)
    refine ⟨t, by simpa using ht, ?_, fun n => ?_⟩
    · rw [htsrc, hsrc, Source.advanced_advanced, List.length_cons, Nat.add_comm]
    · rw [List.length_cons, Nat.add_right_comm, hs.beats_succ hi hl hm, hbeats]

theorem performIn_decoder {s : State} (n : Nat) (hp : s.phase = .idle) (hl : s.source.link = .exclusive) :
    performIn n i s = beats i n (s.issueDecoder.launch i.op) := by
  simp only [performIn, (exec_decoder_idle_iff hi hp).2 ⟨hl, rfl⟩]

/-- A decoder's operation once it has read at most nine bytes, none of them a last one: where it stands, and that the
beat that ends it from there ends the operation. -/
theorem perform_decoder_read {bs : List Byte} {s : State} (hp : s.phase = .idle) (hl : s.source.link = .exclusive)
    (hy : s.source.yields bs = true) (hbs : bs.all contFlag = true) (hlen : bs.length ≤ 9) :
    ∃ t, performIn bs.length i s = .next t ∧ Decoding i bs t ∧ t.source = s.source.advanced bs.length ∧
      ∀ u, DecoderMove i t u → u.phase = .idle → perform i s = .next u := by
  obtain ⟨t, ht, hsrc, hbeats⟩ := (decoding_issue i s).beats_read hi hl hy hbs (by simpa using hlen)
  refine ⟨t, ?_, ht, hsrc, fun u hm hu => ?_⟩
  · rw [performIn_decoder hi _ hp hl]
    exact hbeats 0
  · have hmax : Config.MAXLEN = bs.length + (9 - bs.length + 1) := by rw [Config.MAXLEN]; omega
    rw [perform, hmax, performIn_decoder hi _ hp hl, hbeats, ht.beats_succ hi (by simp [hsrc, hl]) hm, beats_idle i _ hu]

end

end Sys2Proof.Machine
end

section
/-! PROOF. A sequence is continuation bytes and one last byte (30_encoding.md R58, R61 to R63). -/

namespace Sys2Proof.Machine

theorem isSequence_iff {bs : List Byte} :
    Wire.isSequence bs = true ↔
      ∃ pre b, bs = pre ++ [b] ∧ pre.all contFlag = true ∧ contFlag b = false ∧ pre.length ≤ 9 := by
  constructor
  · intro h
    obtain rfl | ⟨pre, b, rfl⟩ := List.eq_nil_or_concat' bs
    · simp [Wire.isSequence] at h
    · exact ⟨pre, b, rfl, by simpa [Wire.isSequence, and_assoc, Nat.lt_succ_iff] using h⟩
  · rintro ⟨pre, b, rfl, h⟩
    simpa [Wire.isSequence, and_assoc, Nat.lt_succ_iff] using h

/-- A legal sequence, taken apart: its last byte passes the test of the 10th byte where it is the 10th. -/
theorem exists_of_legalFor {i : Instr} {bs : List Byte} (hi : i = .decu ∨ i = .decs) (h : legalFor i bs = true) :
    ∃ pre b, bs = pre ++ [b] ∧ pre.all contFlag = true ∧ contFlag b = false ∧ pre.length ≤ 9 ∧
      (pre.length = 9 → tailRejected (decoderTail i) b = false) := by
  have hseq : Wire.isSequence bs = true := by
    obtain rfl | rfl := hi
    · exact (Bool.and_eq_true_iff.1 (show Wire.legalUnsigned bs = true from h)).1
    · exact (Bool.and_eq_true_iff.1 (show Wire.legalSigned bs = true from h)).1
  obtain ⟨pre, b, rfl, hpre, hb, hlen⟩ := isSequence_iff.1 hseq
  refine ⟨pre, b, rfl, hpre, hb, hlen, fun h9 => tailRejected_legal hi ?_⟩
  obtain rfl | rfl := hi
  · have hlast : b = 0x00 ∨ b = 0x01 := by simpa [legalFor, Instr.op, Wire.legalUnsigned, hseq, h9] using h
    simpa using hlast
  · have hlast : b = 0x00 ∨ b = 0x7f := by simpa [legalFor, Instr.op, Wire.legalSigned, hseq, h9] using h
    simpa using hlast

/-- The beat that reads the last byte of a legal sequence ends the operation with its value. -/
theorem Decoding.completes {i : Instr} {pre : List Byte} {s : State} {b : Byte} {src : Source} (hs : Decoding i pre s)
    (ha : s.source.answer = some (.byte b, src)) (hb : contFlag b = false)
    (htail : pre.length = 9 → tailRejected (decoderTail i) b = false) :
    ∃ t, DecoderMove i s t ∧ t.phase = .idle ∧ t.status = .holds 0 ∧
      t.valOut = .holds (valueFor i (pre ++ [b])) ∧ t.count = .holds (BitVec.ofNat 4 (pre ++ [b]).length) ∧ t.source = src := by
  obtain ⟨-, -, hacc, hshift, hcnt, -, hlen⟩ := hs
  have hk := shiftAfter_toNat hlen
  refine ⟨_, .completes hcnt ha hshift hacc (by omega) (fun h63 => htail (by omega)) hb, rfl, rfl, ?_, ?_, rfl⟩
  · exact congrArg Reg.holds (decodedValue_payloadSum i b hlen)
  · exact congrArg Reg.holds (ofNat_length_append pre b).symm

section

variable {i : Instr} {bs : List Byte} {s : State} (hi : i = .decu ∨ i = .decs) (hp : s.phase = .idle)
  (hl : s.source.link = .exclusive) (hlegal : legalFor i bs = true) (hy : s.source.yields bs = true)
include hi hp hl hlegal hy

/-- A decoder whose source yields a legal sequence ends with its value and its length, the source just after it. -/
theorem perform_decoder_legal :
    ∃ t, perform i s = .next t ∧ t.phase = .idle ∧ t.status = .holds 0 ∧ t.valOut = .holds (valueFor i bs) ∧
      t.count = .holds (BitVec.ofNat 4 bs.length) ∧ t.source = s.source.advanced bs.length := by
  obtain ⟨pre, b, rfl, hpre, hb, hlen, htail⟩ := exists_of_legalFor hi hlegal
  obtain ⟨hypre, hyb⟩ := Source.yields_append hy
  obtain ⟨t, -, ht, hsrc, hend⟩ := perform_decoder_read hi hp hl hypre hpre hlen
  obtain ⟨ha, -⟩ := Source.yields_cons hyb
  obtain ⟨u, hm, hu, hst, hval, hcount, husrc⟩ := ht.completes (hsrc ▸ ha) hb htail
  refine ⟨u, hend u hm hu, hu, hst, hval, hcount, ?_⟩
  rw [husrc, hsrc, Source.advanced_advanced, List.length_append, List.length_singleton]

/-- The loop invariant: before the beat that reads byte `k` of a legal sequence a decoder has read the first `k`. -/
theorem performIn_decoder_legal {k : Nat} (hk : k < bs.length) :
    ∃ t, performIn k i s = .next t ∧ Decoding i (bs.take k) t := by
  obtain ⟨pre, b, rfl, hpre, -, hlen, -⟩ := exists_of_legalFor hi hlegal
  have hle : k ≤ pre.length := by simpa [Nat.lt_succ_iff] using hk
  have htake : (pre ++ [b]).take k = pre.take k := List.take_append_of_le_length hle
  have hklen : (pre.take k).length = k := List.length_take_of_le hle
  have hyk : s.source.yields (pre.take k) = true := by
    rw [← htake]
    exact (Source.yields_append ((List.take_append_drop k (pre ++ [b])).symm ▸ hy)).1
  have hmore : (pre.take k).all contFlag = true :=
    List.all_eq_true.2 fun x hx => List.all_eq_true.1 hpre x (List.mem_of_mem_take hx)
  obtain ⟨t, hperf, ht, -⟩ := perform_decoder_read hi hp hl hyk hmore (by omega)
  rw [hklen] at hperf
  exact ⟨t, hperf, htake ▸ ht⟩

end

end Sys2Proof.Machine
end

section
/-! PROOF. The bits of a value that is put together from payloads, and the signed value of a sequence as the two's
complement number that its payloads form (30_encoding.md R56, R57). -/

namespace Sys2Proof.Machine

theorem getLsbD_of_toNat_lt {w k j : Nat} {v : BitVec w} (h : v.toNat < 2 ^ k) (hj : k ≤ j) : v.getLsbD j = false :=
  Nat.testBit_lt_two_pow (h.trans_le (Nat.pow_le_pow_right (by decide) hj))

theorem withPayload_getLsbD (a : Value) (k : BitVec 7) (b : Byte) (j : Nat) :
    (withPayload a k b).getLsbD j =
      (a.getLsbD j || (decide (j < 64) && !decide (j < k.toNat) && (low7 b).getLsbD (j - k.toNat))) := by
  rw [withPayload, payloadAt, lsl64, BitVec.getLsbD_or, BitVec.getLsbD_shiftLeft, BitVec.getLsbD_setWidth]
  grind

theorem signMask_getLsbD (T j : Nat) : (signMask T).getLsbD j = (decide (j < 64) && !decide (j < T)) := by
  have hones : ones64 = BitVec.allOnes 64 := by decide
  rw [signMask, lsl64, hones, BitVec.getLsbD_shiftLeft, BitVec.getLsbD_allOnes]
  grind

/-- The highest payload bit of the last byte of at most nine is the highest bit that the payloads reach. -/
theorem payloadSum_top {pre : List Byte} (b : Byte) (h : pre.length ≤ 8) :
    (Wire.payloadSum (pre ++ [b])).getLsbD (7 * pre.length + 6) = signFlag b := by
  have hk := shiftAfter_toNat (pre := pre) (by omega)
  have hlow := getLsbD_of_toNat_lt (payloadSum_lt pre) (show 7 * pre.length ≤ 7 * pre.length + 6 by omega)
  rw [← withPayload_payloadSum b (by omega), withPayload_getLsbD, hlow, hk, Nat.add_sub_cancel_left,
    decide_eq_true (by omega), decide_eq_false (by omega)]
  simp [low7, signFlag]

/-- Above bit 63 the mask of sign extension is empty, so the signed value needs no test of the bits consumed (R57). -/
theorem signedValue_append (pre : List Byte) (b : Byte) :
    Wire.signedValue (pre ++ [b]) =
      if signFlag b then Wire.payloadSum (pre ++ [b]) ||| signMask (7 * (pre.length + 1))
      else Wire.payloadSum (pre ++ [b]) := by
  by_cases h : 7 * (pre.length + 1) < 64
  · simp only [Wire.signedValue, signMask, List.length_append, List.length_singleton, h, true_and,
      List.getLast?_concat, Option.any_some]
  · have hempty : signMask (7 * (pre.length + 1)) = 0#64 :=
      BitVec.eq_of_getLsbD_eq fun j hj => by
        rw [signMask_getLsbD, BitVec.getLsbD_zero, decide_eq_true (show j < 7 * (pre.length + 1) by omega)]
        simp
    simp [Wire.signedValue, hempty, h]

/-- The signed value of a sequence of at most nine bytes is its payloads' number with the sign carried up (R57). -/
theorem signedValue_eq_signExtend {bs : List Byte} (hseq : Wire.isSequence bs = true) (hlen : bs.length ≤ 9) :
    Wire.signedValue bs = ((Wire.payloadSum bs).setWidth (7 * bs.length)).signExtend 64 := by
  obtain ⟨pre, b, rfl, -⟩ := isSequence_iff.1 hseq
  have hsum := payloadSum_lt (pre ++ [b])
  rw [List.length_append, List.length_singleton] at hlen hsum ⊢
  have hmsb : ((Wire.payloadSum (pre ++ [b])).setWidth (7 * (pre.length + 1))).msb = signFlag b := by
    rw [BitVec.msb_eq_getLsbD_last, BitVec.getLsbD_setWidth, show 7 * (pre.length + 1) - 1 = 7 * pre.length + 6 by omega,
      payloadSum_top b (by omega), decide_eq_true (by omega), Bool.true_and]
  refine BitVec.eq_of_getLsbD_eq fun j hj => ?_
  rw [BitVec.getLsbD_signExtend, hmsb, BitVec.getLsbD_setWidth, signedValue_append, decide_eq_true hj, Bool.true_and]
  by_cases hlow : j < 7 * (pre.length + 1)
  · cases signFlag b <;> simp [signMask_getLsbD, hlow]
  · have hhigh : (Wire.payloadSum (pre ++ [b]))[j] = false := getLsbD_of_toNat_lt hsum (Nat.le_of_not_lt hlow)
    cases signFlag b <;> simp [signMask_getLsbD, hj, hlow, hhigh]

/-- Settles O34: the operation, the value as a number, and the loop invariant before each byte. -/
theorem decsRebuildsTheSignedValue : Obligations.DecsRebuildsTheSignedValue := by
  intro bs s hp hl hlegal hy
  refine ⟨perform_decoder_legal (.inr rfl) hp hl hlegal hy, fun hlen => ?_, fun k hk => ?_⟩
  · obtain ⟨hseq, -⟩ := Bool.and_eq_true_iff.1 hlegal
    rw [signedValue_eq_signExtend hseq hlen, BitVec.toInt_signExtend_of_le (by omega)]
  · obtain ⟨t, ht, hrun, -, hacc, hshift, hcnt, -, -⟩ :=
      performIn_decoder_legal (i := .decs) (.inr rfl) hp hl hlegal hy hk
    have hklen : (bs.take k).length = k := List.length_take_of_le hk.le
    rw [shiftAfter, hklen] at hshift
    rw [hklen] at hcnt
    exact ⟨t, ht, hrun, hshift, hcnt, hacc⟩

end Sys2Proof.Machine
end

section
/-! PROOF. The command word: its two fields, the operation it decodes to, and the rows of the opcode table that accept it
(30_encoding.md R50 to R53). -/

namespace Sys2Proof

@[simp] theorem decode_op_encu (v : Value) : decode (0b00#2 ++ v) = .encu v := by
  rw [decode, opField_append, valInField_append]; rfl

@[simp] theorem decode_op_decu (v : Value) : decode (0b01#2 ++ v) = .decu := by
  rw [decode, opField_append, valInField_append]; rfl

@[simp] theorem decode_op_encs (v : Value) : decode (0b10#2 ++ v) = .encs v := by
  rw [decode, opField_append, valInField_append]; rfl

@[simp] theorem decode_op_decs (v : Value) : decode (0b11#2 ++ v) = .decs := by
  rw [decode, opField_append, valInField_append]; rfl

/-- Settles O1, one value of `OP` at a time. -/
theorem opFieldSelectsTheOperation : Obligations.OpFieldSelectsTheOperation :=
  fun v => ⟨decode_op_encu v, decode_op_decu v, decode_op_encs v, decode_op_decs v⟩

/-- A word is a `VAL_IN` under one of the four values of `OP`. -/
theorem word_cases (w : CommandWord) :
    ∃ v : Value, w = 0b00#2 ++ v ∨ w = 0b01#2 ++ v ∨ w = 0b10#2 ++ v ∨ w = 0b11#2 ++ v := by
  have four : ∀ op : BitVec 2, op = 0b00#2 ∨ op = 0b01#2 ∨ op = 0b10#2 ∨ op = 0b11#2 := by decide
  refine ⟨valInField w, ?_⟩
  obtain h | h | h | h := four (opField w) <;> simp [← h, op_append_valIn]

theorem op_decode (w : CommandWord) : (decode w).op = opField w := by
  obtain ⟨v, rfl | rfl | rfl | rfl⟩ := word_cases w <;> simp [Instr.op]

theorem valIn_decode (w : CommandWord) :
    (decode w).valIn = if (opField w).getLsbD 0 then 0#64 else valInField w := by
  obtain ⟨v, rfl | rfl | rfl | rfl⟩ := word_cases w <;> simp [Instr.valIn]

theorem decode_encode (i : Instr) : decode (encode i) = i := by
  cases i with
  | encu v => exact decode_op_encu v
  | decu => exact decode_op_decu 0
  | encs v => exact decode_op_encs v
  | decs => exact decode_op_decs 0

theorem encode_decode (w : CommandWord) :
    encode (decode w) = opField w ++ if (opField w).getLsbD 0 then 0#64 else valInField w := by
  rw [encode, op_decode, valIn_decode]

theorem wellFormed_all (i : Instr) : i.wellFormed = true := by
  cases i <;> rfl

theorem decodeCommand_toNat (w : CommandWord) : decodeCommand w.toNat = .ok (decode w) := by
  rw [decodeCommand, if_pos w.isLt, BitVec.ofNat_toNat, BitVec.setWidth_eq]

/-- Settles O3. -/
theorem everyWordIsACommand : Obligations.EveryWordIsACommand :=
  fun w => ⟨decodeCommand_toNat w, wellFormed_all _⟩

/-- Settles O4: what a word decodes to is decided by its own word, and that of a decoder has `VAL_IN` zero. -/
theorem decodeCommandsIgnoreValIn : Obligations.DecodeCommandsIgnoreValIn := by
  intro w w' hop hbit
  have hword : encode (decode w) = encode (decode w') := by
    rw [encode_decode, encode_decode, if_pos hbit, if_pos (hop ▸ hbit), hop]
  rw [← decode_encode (decode w), hword, decode_encode]

/-- Settles O5. -/
theorem commandWordsRoundTrip : Obligations.CommandWordsRoundTrip :=
  ⟨fun i _ => decode_encode i, encode_decode⟩

/-- An operation's own word is accepted by its own row alone. -/
theorem rows_of_encode (i : Instr) : Laws.Row.Statement i := by
  cases i with
  | encu v => exact Laws.Row.encu v
  | decu => exact Laws.Row.decu
  | encs v => exact Laws.Row.encs v
  | decs => exact Laws.Row.decs

/-- A word is accepted by the rows that accept the word of the operation it decodes to: both have the same `OP`. -/
theorem accepting_rows_decode (w : CommandWord) :
    (opcodeTable.filter fun r => r.accepts w) = opcodeTable.filter fun r => r.accepts (encode (decode w)) := by
  have hw := Laws.Row.accepting_rows (opField w) (valInField w)
  rw [op_append_valIn] at hw
  rw [hw, encode, op_decode, ← Laws.Row.accepting_rows]

/-- Settles O6. -/
theorem tableRowsPartTheWords : Obligations.TableRowsPartTheWords := by
  intro w
  rw [accepting_rows_decode]
  exact rows_of_encode (decode w)

end Sys2Proof
end

section
/-! PROOF. The written form of a command: its number as the pattern in `VAL_IN` (30_encoding.md R65, R66). -/

namespace Sys2Proof

theorem assemble_encu {v : Int} (h : 0 ≤ v ∧ v < 2 ^ 64) :
    (Asm.encu v).assemble = some (.encu (BitVec.ofInt 64 v)) := by
  obtain ⟨hlo, hhi⟩ := h
  rw [Asm.assemble, Asm.wellFormed, decide_eq_true hlo, decide_eq_true hhi, Bool.and_self, if_pos rfl]

theorem assemble_encs {v : Int} (h : -2 ^ 63 ≤ v ∧ v < 2 ^ 63) :
    (Asm.encs v).assemble = some (.encs (BitVec.ofInt 64 v)) := by
  obtain ⟨hlo, hhi⟩ := h
  rw [Asm.assemble, Asm.wellFormed, decide_eq_true hlo, decide_eq_true hhi, Bool.and_self, if_pos rfl]

theorem assemble_not_wellFormed {a : Asm} (h : a.wellFormed = false) : a.assemble = none := by
  simp [Asm.assemble, h]

/-- Settles O7: a number in range is its pattern's reading, and one out of range is not well-formed. -/
theorem writtenOperandIsPlacedAsItsPattern : Obligations.WrittenOperandIsPlacedAsItsPattern := by
  refine ⟨fun v => ⟨fun h => ⟨_, assemble_encu h, ?_⟩, fun h => assemble_not_wellFormed ?_⟩,
    fun v => ⟨fun h => ⟨_, assemble_encs h, ?_⟩, fun h => assemble_not_wellFormed ?_⟩, rfl, rfl⟩
  · rw [BitVec.toNat_ofInt]; omega
  · simpa [Asm.wellFormed] using h
  · exact BitVec.toInt_ofInt_eq_self (by decide) h.1 h.2
  · simpa [Asm.wellFormed] using h

end Sys2Proof
end

section
/-! PROOF. A command at the port, and the steps of the machine that carry its operation out (10_state.md R12, R13;
30_encoding.md R50; 70_reset_and_hazards.md R151). -/

namespace Sys2Proof.Machine

theorem step_command_idle {s : State} {w : CommandWord} {rest : List Input} (hp : s.phase = .idle)
    (h : s.inputs = .command w :: rest) : step s = exec (decode w) { s with inputs := rest } := by
  rw [step_of_move h nofun]
  simp only [takeInput, offer, hp]

/-- Settles O8. -/
theorem stepRunsTheDecodedCommand : Obligations.StepRunsTheDecodedCommand := by
  intro s w rest i hp hin hi _
  rw [decodeCommand_toNat, Except.ok.injEq] at hi
  rw [step_command_idle hp hin, hi]

section

variable {M : Host.Core} {s s' : M.State} (n : Nat)

theorem run_of_next (h : M.step s = .next s') : M.run (n + 1) s = M.run n s' := by
  simp only [Host.Core.run, h]

theorem run_of_fault {f : M.Fault} (h : M.step s = .fault f) : M.run (n + 1) s = .fault f := by
  simp only [Host.Core.run, h]

theorem run_of_refused {r : M.Refusal} (h : M.step s = .refused r) : M.run (n + 1) s = .refused r := by
  simp only [Host.Core.run, h]

end

/-- The core runs `i`, or no operation at all, and the outside world has no move left. -/
structure LeftAlone (i : Instr) (s : State) : Prop where
  inputs : s.inputs = []
  opsel : s.phase = .run → s.opsel = .holds i.op

/-- A move on behalf of the running operation leaves it selected while it runs on. -/
theorem exec_keeps_opsel {i : Instr} {s t : State} (ho : s.phase = .run → s.opsel = .holds i.op)
    (h : exec i s = .next t) : t.opsel = .holds i.op := by
  obtain ⟨v, hi⟩ | hi := encoder_or_decoder i
  · obtain ⟨-, rfl⟩ | ⟨-, hop, hm⟩ | ⟨hp, hne, -⟩ := exec_encoder_next hi h
    · rfl
    · obtain ⟨-, -, -, -, hopsel⟩ := hm.frame
      exact hopsel.trans hop
    · exact absurd (ho hp) hne
  · obtain ⟨-, rfl⟩ | ⟨-, hop, hm⟩ | ⟨hp, hne, -⟩ := exec_decoder_next hi h
    · rfl
    · obtain ⟨-, -, -, hopsel⟩ := hm.frame
      exact hopsel.trans hop
    · exact absurd (ho hp) hne

theorem LeftAlone.next {i : Instr} {s t : State} (hs : LeftAlone i s) (h : exec i s = .next t) : LeftAlone i t := by
  obtain ⟨-, -, hinputs⟩ := exec_keeps_environment h
  exact ⟨hinputs.trans hs.inputs, fun _ => exec_keeps_opsel hs.opsel h⟩

/-- The steps of a machine left alone are the beats of the operation it runs. -/
theorem run_eq_beats {i : Instr} {s : State} (n : Nat) (hs : LeftAlone i s) : core.run n s = beats i n s := by
  induction n generalizing s with
  | zero => rfl
  | succ n ih =>
    have hstep : core.step s = advance s := step_of_no_move hs.inputs
    cases hp : s.phase with
    | idle =>
      rw [run_of_next n (hstep.trans (advance_idle hp)), ih hs, beats_idle i n hp, beats_idle i (n + 1) hp]
    | run =>
      rw [advance_run hp (hs.opsel hp)] at hstep
      simp only [beats, hp]
      cases he : exec i s with
      | next s' => exact (run_of_next n (hstep.trans he)).trans (ih (hs.next he))
      | fault f => exact run_of_fault n (hstep.trans he)
      | refused r => exact run_of_refused n (hstep.trans he)

/-- Settles O38: the first step is the issue step, the other ten are the beats. -/
theorem runningStepsPerformTheOperation : Obligations.RunningStepsPerformTheOperation := by
  intro s w hp
  have hstep : core.step { s with inputs := [.command w] } = exec (decode w) { s with inputs := [] } :=
    step_command_idle (s := { s with inputs := [.command w] }) hp rfl
  have hs : LeftAlone (decode w) { s with inputs := [] } := ⟨rfl, by simp [hp]⟩
  simp only [perform, performIn]
  cases he : exec (decode w) { s with inputs := [] } with
  | next t => exact (run_of_next 10 (hstep.trans he)).trans (run_eq_beats 10 (hs.next he))
  | fault f => exact run_of_fault 10 (hstep.trans he)
  | refused r => exact run_of_refused 10 (hstep.trans he)

end Sys2Proof.Machine
end

section
/-! PROOF. Sequences by themselves: where one ends, how long the minimal ones are (30_encoding.md R58, R59). -/

namespace Sys2Proof.Machine

/-- The bytes of a stream before its first last byte. -/
theorem takeWhile_contFlag {pre rest : List Byte} {b : Byte} (hpre : pre.all contFlag = true) (hb : contFlag b = false) :
    (pre ++ b :: rest).takeWhile contFlag = pre := by
  rw [List.takeWhile_append_of_pos (List.all_eq_true.1 hpre), List.takeWhile_cons_of_neg (by simp [hb]), List.append_nil]

/-- Settles O39: a sequence is what a stream has up to its first byte with the continuation flag clear. -/
theorem sequencesAreSelfDelimiting : Obligations.SequencesAreSelfDelimiting := by
  intro bs cs rest rest' hbs hcs h
  obtain ⟨pre, b, rfl, hpre, hb, hlen⟩ := isSequence_iff.1 hbs
  obtain ⟨pre', b', rfl, hpre', hb', -⟩ := isSequence_iff.1 hcs
  simp only [List.append_assoc, List.singleton_append] at h
  obtain rfl : pre = pre' := by
    rw [← takeWhile_contFlag (rest := rest) hpre hb, h, takeWhile_contFlag hpre' hb']
  obtain ⟨rfl, -⟩ := List.cons.inj (List.append_cancel_left h)
  exact ⟨by simp, by simpa [Nat.lt_succ_iff] using hlen, rfl⟩

theorem encodeUnsigned_length (v : Value) : (Wire.encodeUnsigned v).length = Wire.unsignedLength v := by
  rw [Wire.encodeUnsigned, List.length_map, List.length_range]

theorem encodeSigned_length (v : Value) : (Wire.encodeSigned v).length = Wire.signedLength v := by
  rw [Wire.encodeSigned, List.length_map, List.length_range]

/-- The minimal unsigned sequence has one byte more than `k` where `k` groups do not hold the value and one more does. -/
theorem unsignedLength_eq_succ_iff (v : Value) {k : Nat} (hk : 1 ≤ k) :
    Wire.unsignedLength v = k + 1 ↔ 2 ^ (7 * k) ≤ v.toNat ∧ v.toNat < 2 ^ (7 * (k + 1)) := by
  rw [← Wire.unsignedLength_le_iff v (by omega), ← not_lt, ← Wire.unsignedLength_le_iff v hk]
  omega

/-- Settles O40: every length is bounded by the groups that hold the value. -/
theorem encodedLengthThresholds : Obligations.EncodedLengthThresholds := by
  refine ⟨fun v => ?_, fun v k hk _ => ?_, fun v => ?_, fun v n hn _ => ?_⟩
  · have h1 := Wire.unsignedLength_le_iff v le_rfl
    have hone := Wire.one_le_unsignedLength v
    rw [encodeUnsigned_length]
    omega
  · obtain ⟨j, rfl⟩ : ∃ j, k = j + 1 := ⟨k - 1, by omega⟩
    have hpos := Nat.two_pow_pos (7 * (j + 1))
    rw [encodeUnsigned_length, unsignedLength_eq_succ_iff v (by omega), Nat.add_sub_cancel]
    omega
  · have hlt := v.isLt
    rw [encodeUnsigned_length, unsignedLength_eq_succ_iff v (by decide)]
    omega
  · rw [encodeSigned_length, Wire.signedLength_le_iff v hn, Wire.fitsSigned_iff]
    omega

end Sys2Proof.Machine
end

section
/-! PROOF. Padding a sequence by one group (30_encoding.md R60). -/

namespace Sys2Proof.Machine

theorem low7_or_cont (b : Byte) : low7 (b ||| 0x80) = low7 b := by
  revert b; decide

theorem contFlag_or_cont (b : Byte) : contFlag (b ||| 0x80) = true := by
  revert b; decide

theorem payloadSum_concat (pre : List Byte) (b : Byte) :
    Wire.payloadSum (pre ++ [b]) = Wire.payloadSum pre + payloadAt (low7 b) (7 * pre.length) := by
  rw [payloadSum_append]
  simp [Wire.payloadSum, payloadAt, lsl64]

/-- Padding puts one payload above those of the sequence. -/
theorem payloadSum_padded (pre : List Byte) (b x : Byte) :
    Wire.payloadSum (pre ++ [b ||| 0x80] ++ [x]) =
      Wire.payloadSum (pre ++ [b]) ||| payloadAt (low7 x) (7 * (pre.length + 1)) := by
  have hlt := payloadSum_lt (pre ++ [b])
  rw [List.length_append, List.length_singleton] at hlt
  rw [or_payloadAt _ hlt, payloadSum_concat, payloadSum_concat, payloadSum_concat, low7_or_cont, List.length_append,
    List.length_singleton]

theorem or_payloadAt_zero (v : Value) (k : Nat) : v ||| payloadAt (low7 0x00) k = v := by
  have hzero : low7 0x00 = 0#7 := by decide
  rw [payloadAt, hzero]
  simp [lsl64]

/-- A payload of ones just below the mask of sign extension lowers the mask by one group. -/
theorem payloadAt_ones_or_signMask (k : Nat) : payloadAt (low7 0x7f) k ||| signMask (k + 7) = signMask k := by
  have hones : low7 0x7f = BitVec.allOnes 7 := by decide
  refine BitVec.eq_of_getLsbD_eq fun j hj => ?_
  rw [BitVec.getLsbD_or, signMask_getLsbD, signMask_getLsbD, payloadAt, lsl64, hones, BitVec.getLsbD_shiftLeft,
    BitVec.getLsbD_setWidth, BitVec.getLsbD_allOnes]
  grind

/-- A padded sequence is legal where its new last byte may stand at the 10th position. -/
theorem legalFor_padded {i : Instr} {pre : List Byte} (b : Byte) {x : Byte} (hi : i = .decu ∨ i = .decs)
    (hpre : pre.all contFlag = true) (hlen : pre.length ≤ 8)
    (hx : x = 0x00 ∨ i = .decu ∧ x = 0x01 ∨ i = .decs ∧ x = 0x7f) :
    legalFor i (pre ++ [b ||| 0x80] ++ [x]) = true := by
  have hcont : contFlag x = false := by
    obtain rfl | ⟨-, rfl⟩ | ⟨-, rfl⟩ := hx <;> decide
  have hpad : (pre ++ [b ||| 0x80]).all contFlag = true := by
    rw [List.all_append, hpre, List.all_cons, contFlag_or_cont]; rfl
  exact legalFor_append hi hpad (by rw [List.length_append, List.length_singleton]; omega) hcont
    fun _ => tailRejected_legal hi hx

/-- Padding by the sign bit keeps the signed value: a payload of zeros adds nothing, one of ones stands for bits that
sign extension would set. -/
theorem signedValue_padded (pre : List Byte) (b : Byte) :
    Wire.signedValue (pre ++ [b ||| 0x80] ++ [if signFlag b then 0x7f else 0x00]) = Wire.signedValue (pre ++ [b]) := by
  rw [signedValue_append, signedValue_append, payloadSum_padded, List.length_append, List.length_singleton]
  cases signFlag b with
  | false =>
    rw [if_neg Bool.false_ne_true, if_neg (by decide)]
    exact or_payloadAt_zero ..
  | true =>
    rw [if_pos rfl, if_pos (by decide), if_pos rfl, BitVec.or_assoc, Nat.mul_succ _ (pre.length + 1),
      payloadAt_ones_or_signMask]

/-- Settles O45: the payload added and the legality of the byte that carries it. -/
theorem paddingKeepsTheValue : Obligations.PaddingKeepsTheValue := by
  intro bs b hseq hlen hlast
  obtain ⟨pre, b', rfl, hpre, -, -⟩ := isSequence_iff.1 hseq
  obtain rfl : b' = b := by simpa using hlast
  have h8 : pre.length ≤ 8 := by simpa [Nat.lt_succ_iff] using hlen
  rw [List.dropLast_concat, List.append_cons pre _ [0x00],
    List.append_cons pre _ [if signFlag b' then 0x7f else 0x00]]
  refine ⟨⟨legalFor_padded (i := .decu) b' (.inl rfl) hpre h8 (.inl rfl), ?_⟩,
    legalFor_padded (i := .decs) b' (.inr rfl) hpre h8 ?_, signedValue_padded pre b'⟩
  · exact (payloadSum_padded ..).trans (or_payloadAt_zero ..)
  · cases signFlag b' <;> simp

end Sys2Proof.Machine
end

section
/-! PROOF. Streams that are no sequence: one that ends too early, and one with an illegal 10th byte
(30_encoding.md R61 to R64). -/

namespace Sys2Proof.Machine

/-- A source that will yield bytes holds them unread. -/
theorem Source.unread_of_yields {src : Source} {bs : List Byte} (h : src.yields bs = true) :
    src.unread = bs ++ (src.advanced bs.length).unread := by
  induction bs generalizing src with
  | nil => simp
  | cons b bs ih =>
    obtain ⟨ha, hy⟩ := Source.yields_cons h
    have hb : src.unread = b :: (src.advanced 1).unread := by simpa using Source.answer_unread ha
    rw [hb, ih hy, Source.advanced_advanced, List.length_cons, Nat.add_comm, List.cons_append]

/-- A source that will end after some bytes yields them and then answers `END`. -/
theorem Source.yields_of_endsAfter {src : Source} {bs : List Byte} (h : src.endsAfter bs = true) :
    src.yields bs = true ∧ ∃ src', (src.advanced bs.length).answer = some (.endOfInput, src') := by
  obtain ⟨link, ⟨bytes, pos⟩ | answers⟩ := src <;> simp only [Source.endsAfter] at h
  · obtain rfl := beq_iff_eq.1 h
    refine ⟨by simp [Source.yields], _, Source.answer_reference_end link ?_⟩
    rw [List.length_drop]
    omega
  · obtain ⟨rest, rfl⟩ := List.isPrefixOf_iff_prefix.1 h
    have hprefix : bs.map .byte <+: bs.map .byte ++ [.endOfInput] ++ rest := ⟨[.endOfInput] ++ rest, by simp⟩
    refine ⟨List.isPrefixOf_iff_prefix.2 hprefix, ⟨link, .script rest⟩, ?_⟩
    simp only [Source.advanced, List.append_assoc, List.drop_left' (List.length_map _)]
    rfl

/-- Settles O29: after the bytes read the beat meets `END`. -/
theorem truncatedStreamIsEndOfInput : Obligations.TruncatedStreamIsEndOfInput := by
  intro i bs s hi hp hl hbs hlen hends
  obtain ⟨hy, src, ha⟩ := Source.yields_of_endsAfter hends
  obtain ⟨t, -, ht, hsrc, hend⟩ := perform_decoder_read hi hp hl hy hbs hlen
  rw [← hsrc] at ha
  have hkept : src.unread = t.source.unread := by simpa using Source.answer_unread ha
  refine ⟨_, hend _ (.ends ht.cnt ha) rfl, rfl, rfl, rfl, rfl, ?_⟩
  rw [Source.unread_of_yields hy, ← hsrc, ← hkept]
  rfl

/-- The test of the 10th byte of `DECU` (R61, R63). -/
theorem tailRejected_decu_iff (b : Byte) : tailRejected (decoderTail .decu) b = true ↔ b ≠ 0x00 ∧ b ≠ 0x01 := by
  revert b; decide

/-- The test of the 10th byte of `DECS` (R62, R63). -/
theorem tailRejected_decs_iff (b : Byte) : tailRejected (decoderTail .decs) b = true ↔ b ≠ 0x00 ∧ b ≠ 0x7f := by
  revert b; decide

/-- Settles O30: after nine bytes read the beat rejects the 10th, which it has taken. -/
theorem illegalTenthByteOverflows : Obligations.IllegalTenthByteOverflows := by
  intro i bs b s hp hl hbs hlen hyields h
  have hi : i = .decu ∨ i = .decs := h.imp And.left And.left
  have hrej : tailRejected (decoderTail i) b = true := by
    obtain ⟨rfl, hb⟩ | ⟨rfl, hb⟩ := h
    · exact (tailRejected_decu_iff b).2 hb
    · exact (tailRejected_decs_iff b).2 hb
  obtain ⟨hy, hyb⟩ := Source.yields_append hyields
  obtain ⟨t, -, ht, hsrc, hend⟩ := perform_decoder_read hi hp hl hy hbs hlen.le
  obtain ⟨ha, -⟩ := Source.yields_cons hyb
  rw [← hsrc] at ha
  have hk : (shiftAfter bs).toNat = 63 := by rw [shiftAfter_toNat hlen.le, hlen]
  refine ⟨_, hend _ (.overflows ht.cnt ha ht.shift hk hrej) rfl, rfl, rfl, ?_, rfl, ?_⟩
  · simp [hlen]
  · simp [hsrc, Source.advanced_advanced, hlen]

end Sys2Proof.Machine
end

section
/-! PROOF. The table of what a byte does at each position of a running decoder (30_encoding.md R69). -/

namespace Sys2Proof.Machine

theorem contFlag_iff_le (b : Byte) : contFlag b = true ↔ 0x80 ≤ b.toNat := by
  revert b; decide

/-- At the 10th position bit 63 of the value is the lowest payload bit: there is no room for sign extension. -/
theorem decodedValue_bit63_tenth (i : Instr) {a : Value} {k : BitVec 7} (b : Byte) (ha : a.toNat < 2 ^ 63)
    (hk : k.toNat = 63) : (decodedValue i a k b).getLsbD 63 = b.getLsbD 0 := by
  have hT : ¬ (k.toNat + Config.G < Config.W) := by rw [hk]; decide
  have hfinish : decodedValue i a k b = withPayload a k b := by
    simp [decodedValue, decoderFinish, decuFinish, decsFinish, hT]
  rw [hfinish, withPayload_getLsbD, getLsbD_of_toNat_lt ha le_rfl, hk]
  simp [low7]

/-- At the positions before the 10th bit 63 of the signed value is the sign bit of the last byte. -/
theorem decodedValue_decs_bit63 {a : Value} {k : BitVec 7} (b : Byte) (ha : a.toNat < 2 ^ k.toNat)
    (hk : k.toNat ≤ 56) : (decodedValue .decs a k b).getLsbD 63 = signFlag b := by
  have hT : k.toNat + Config.G < Config.W := by simp only [Config.G, Config.W]; omega
  have hlow := getLsbD_of_toNat_lt (withPayload_lt b ha) (show k.toNat + 7 ≤ 63 by omega)
  have hmask : (signMask (k.toNat + Config.G)).getLsbD 63 = true := by
    rw [signMask_getLsbD, decide_eq_false (show ¬ 63 < k.toNat + Config.G by simp only [Config.G]; omega)]; rfl
  have hvalue : decodedValue .decs a k b =
      if signFlag b then withPayload a k b ||| signMask (k.toNat + Config.G) else withPayload a k b := by
    simp [decodedValue, decoderFinish, Instr.op, decsFinish, hT]
  rw [hvalue]
  cases signFlag b with
  | false => exact hlow
  | true => exact (BitVec.getLsbD_or ..).trans (by rw [hlow, hmask]; rfl)

/-- What the byte `b` does in decoder `i` with `c` bytes read before it (R69). -/
structure ByteRow (i : Instr) (c : BitVec 4) (b : Byte) (t : State) : Prop where
  last : c ≠ 9 → contFlag b = false → t.phase = .idle ∧ t.status = .holds 0 ∧
    (i = .decs → ∃ v : Value, t.valOut = .holds v ∧ v.getLsbD 63 = signFlag b)
  goesOn : c ≠ 9 → contFlag b = true → t.phase = .run
  tenth : c = 9 → t.phase = .idle
  legalTenth : c = 9 → tailRejected (decoderTail i) b = false →
    t.status = .holds 0 ∧ ∃ v : Value, t.valOut = .holds v ∧ v.getLsbD 63 = b.getLsbD 0
  illegalTenth : c = 9 → tailRejected (decoderTail i) b = true → t.status = .holds 2

/-- A byte read in a state with legal working registers does what its row of the table says. -/
theorem exec_byteRow {i : Instr} {s : State} {c : BitVec 4} {b : Byte} {src : Source} (hi : i = .decu ∨ i = .decs)
    (hw : s.workLegal = true) (hp : s.phase = .run) (ho : s.opsel = .holds i.op) (hl : s.source.link = .exclusive)
    (hc : s.cnt = .holds c) (ha : s.source.answer = some (.byte b, src)) :
    ∃ t, exec i s = .next t ∧ ByteRow i c b t := by
  rw [workLegal_run hp ho] at hw
  obtain ⟨a, k, c', hacc, hk, hc', hle, hshift, hlt⟩ := (decoderLegal_iff hi).1 hw
  obtain rfl := Reg.holds_unique hc' hc
  rw [← hshift] at hlt
  have h63 : k.toNat = 63 ↔ c' = 9 := by
    rw [← BitVec.toNat_inj, hshift, show (9 : BitVec 4).toNat = 9 by decide]; omega
  have hmove {t : State} (hm : DecoderMove i s t) : exec i s = .next t := (exec_decoder_run_iff hi hp ho).2 ⟨hl, hm⟩
  by_cases hrej : c' = 9 ∧ tailRejected (decoderTail i) b = true
  · obtain ⟨hc9, htail⟩ := hrej
    exact ⟨_, hmove (.overflows hc ha hk (h63.2 hc9) htail),
      { last := fun hne => absurd hc9 hne
        goesOn := fun hne => absurd hc9 hne
        tenth := fun _ => rfl
        legalTenth := fun _ hpass => by simp [htail] at hpass
        illegalTenth := fun _ _ => rfl }⟩
  have htail : c' = 9 → tailRejected (decoderTail i) b = false := fun h => by simpa [h] using hrej
  cases hcont : contFlag b with
  | true =>
    have hc9 : c' ≠ 9 := fun h => by simpa [tailRejected_of_contFlag _ hcont] using htail h
    exact ⟨_, hmove (.goesOn hc ha hk hacc (by omega) (fun h => htail (h63.1 h)) hcont),
      { last := fun _ hlast => by simp [hcont] at hlast
        goesOn := fun _ _ => hp
        tenth := fun h9 => absurd h9 hc9
        legalTenth := fun h9 => absurd h9 hc9
        illegalTenth := fun h9 => absurd h9 hc9 }⟩
  | false =>
    refine ⟨_, hmove (.completes hc ha hk hacc (by omega) (fun h => htail (h63.1 h)) hcont),
      { last := fun hne _ => ⟨rfl, rfl, fun hs => ⟨_, rfl, ?_⟩⟩
        goesOn := fun _ hon => by simp [hcont] at hon
        tenth := fun _ => rfl
        legalTenth := fun h9 _ => ⟨rfl, _, rfl, decodedValue_bit63_tenth i b ((h63.2 h9) ▸ hlt) (h63.2 h9)⟩
        illegalTenth := fun h9 hrej => by simp [htail h9] at hrej }⟩
    have hne63 := mt h63.1 hne
    exact hs ▸ decodedValue_decs_bit63 b hlt (by omega)

/-- Settles O17: the rows of either decoder, with the bytes that are legal at the 10th position. -/
theorem byteTableOfTheDecoders : Obligations.ByteTableOfTheDecoders := by
  intro s c b src hs hp hl hc
  obtain ⟨-, hw, -⟩ := hs
  have hend {i : Instr} (hi : i = .decu ∨ i = .decs) (ha : s.source.answer = some (.endOfInput, src))
      (ho : s.opsel = .holds i.op) : ∃ t, exec i s = .next t ∧ t.phase = .idle ∧ t.status = .holds 1 :=
    ⟨_, (exec_decoder_run_iff hi hp ho).2 ⟨hl, .ends hc ha⟩, rfl, rfl⟩
  have hon : 0x80 ≤ b.toNat → contFlag b = true := (contFlag_iff_le b).2
  have hlow (hlt : b.toNat < 0x80) : contFlag b = false := by
    rw [← Bool.not_eq_true, contFlag_iff_le]; omega
  refine ⟨fun ha => ⟨hend (.inl rfl) ha, hend (.inr rfl) ha⟩, fun ha ho => ?_, fun ha ho => ?_⟩
  · obtain ⟨t, ht, hrow⟩ := exec_byteRow (i := .decu) (.inl rfl) hw hp ho hl hc ha
    refine ⟨t, ht, fun h9 hb => ?_, fun h9 hb => hrow.goesOn h9 (hon hb), hrow.tenth, ?_, ?_,
      fun h9 hb => hrow.illegalTenth h9 ((tailRejected_decu_iff b).2 ?_)⟩
    · obtain ⟨hidle, hst, -⟩ := hrow.last h9 (hlow hb)
      exact ⟨hidle, hst⟩
    · rintro h9 rfl
      exact hrow.legalTenth h9 (by decide)
    · rintro h9 rfl
      exact hrow.legalTenth h9 (by decide)
    · bv_omega
  · obtain ⟨t, ht, hrow⟩ := exec_byteRow (i := .decs) (.inr rfl) hw hp ho hl hc ha
    refine ⟨t, ht, fun h9 hb => ?_, fun h9 hb => hrow.goesOn h9 (hon hb), hrow.tenth, ?_, ?_,
      fun h9 h0 h7f => hrow.illegalTenth h9 ((tailRejected_decs_iff b).2 ⟨h0, h7f⟩)⟩
    · obtain ⟨hidle, hst, hval⟩ := hrow.last h9 (hlow hb)
      exact ⟨hidle, hst, hval rfl⟩
    · rintro h9 rfl
      exact hrow.legalTenth h9 (by decide)
    · rintro h9 rfl
      exact hrow.legalTenth h9 (by decide)

end Sys2Proof.Machine
end

section
/-! PROOF. A sink that accepts given bytes, byte by byte (20_memory.md R32). -/

namespace Sys2Proof.Machine

@[simp] theorem Sink.accepted_nil (snk : Sink) : snk.accepted [] = snk := by
  obtain ⟨link, cap | answers, data⟩ := snk <;> simp [Sink.accepted]

@[simp] theorem Sink.accepted_link (snk : Sink) (bs : List Byte) : (snk.accepted bs).link = snk.link := by
  obtain ⟨link, cap | answers, data⟩ := snk <;> rfl

/-- A sink that will accept `n` bytes answers `ACK` to each of them in turn. -/
theorem Sink.answer_accepted {snk : Sink} {n : Nat} {bs : List Byte} (b : Byte) (h : snk.accepts n = true)
    (hlt : bs.length < n) : (snk.accepted bs).answer b = some (.ack, snk.accepted (bs ++ [b])) := by
  obtain ⟨link, ⟨_ | cap⟩ | answers, data⟩ := snk
  · simp [Sink.accepted, Sink.answer]
  · have hroom : data.length + n ≤ cap := by simpa [Sink.accepts] using h
    have hcap : (data ++ bs).length < cap := by rw [List.length_append]; omega
    simp only [Sink.accepted, Sink.answer, if_pos hcap, List.append_assoc]
  · obtain ⟨rest, rfl⟩ := List.isPrefixOf_iff_prefix.1 h
    have hlen : bs.length < (List.replicate n SnkAnswer.ack).length := by rwa [List.length_replicate]
    have hnext : (List.replicate n SnkAnswer.ack ++ rest).drop bs.length =
        .ack :: (List.replicate n SnkAnswer.ack ++ rest).drop (bs.length + 1) := by
      rw [List.drop_eq_getElem_cons (by rw [List.length_append]; omega), List.getElem_append_left hlen,
        List.getElem_replicate]
    simp [Sink.accepted, Sink.answer, hnext]

end Sys2Proof.Machine
end

section
/-! PROOF. The minimal sequences byte by byte: which value is left in `REM` before each byte, and which byte is the last
one (40_unsigned_encoder.md R71, 42_signed_encoder.md R91). -/

namespace Sys2Proof.Machine

/-- What encoder `i` has left in `REM` of the value `v` after `k` bytes that are not last ones. -/
def restAfter (i : Instr) (v : Value) (k : Nat) : Value := (encoderRest i)^[k] v

theorem restAfter_succ (i : Instr) (v : Value) (k : Nat) :
    restAfter i v (k + 1) = encoderRest i (restAfter i v k) :=
  Function.iterate_succ_apply' ..

theorem restAfter_encoderRest (i : Instr) (v : Value) (k : Nat) :
    restAfter i (encoderRest i v) k = restAfter i v (k + 1) :=
  (Function.iterate_succ_apply ..).symm

theorem restAfter_encu (v w : Value) (k : Nat) : restAfter (.encu w) v k = v >>> (7 * k) := by
  induction k with
  | zero => exact (BitVec.ushiftRight_zero v).symm
  | succ k ih =>
    rw [restAfter_succ, ih, Nat.mul_succ, BitVec.shiftRight_add]
    rfl

theorem restAfter_encu_toNat (v w : Value) (k : Nat) : (restAfter (.encu w) v k).toNat = v.toNat / 2 ^ (7 * k) := by
  rw [restAfter_encu]
  exact lsr64_toNat v (7 * k)

theorem contFlag_wireByte (c : Bool) (p : Payload) : contFlag (wireByte c p) = c := by
  rw [contFlag, wireByte, BitVec.getLsbD_append]
  simp

theorem low7_wireByte (c : Bool) (p : Payload) : low7 (wireByte c p) = p :=
  BitVec.extractLsb'_append_eq_right

theorem contFlag_encoderByte (i : Instr) (r : Value) : contFlag (encoderByte i r) = !encoderLast i r := by
  unfold encoderByte encoderLast encuByte encsByte
  split <;> simp [contFlag_wireByte]

theorem sequenceOf_length_pos (i : Instr) (v : Value) : 0 < (sequenceOf i v).length := by
  rw [sequenceOf_eq]
  exact Nat.succ_pos _

theorem last_of_length_one {i : Instr} {v : Value} (h : (sequenceOf i v).length = 1) : encoderLast i v = true := by
  by_contra hne
  have hpos := sequenceOf_length_pos i (encoderRest i v)
  rw [sequenceOf_of_not_last (by simpa using hne), List.length_cons] at h
  omega

/-- What is left of a sequence after `k` bytes is the sequence of what is left in `REM`. -/
theorem drop_sequenceOf {i : Instr} {v : Value} {k : Nat} (hk : k < (sequenceOf i v).length) :
    (sequenceOf i v).drop k = sequenceOf i (restAfter i v k) := by
  induction k generalizing v with
  | zero => rfl
  | succ k ih =>
    have hseq := sequenceOf_of_not_last (not_last_of_one_lt (i := i) (v := v) (by omega))
    rw [hseq, List.length_cons] at hk
    rw [hseq, List.drop_succ_cons, ih (by omega), restAfter_encoderRest]

section

variable {i : Instr} {v : Value} {k : Nat}

theorem length_sequenceOf_restAfter (hk : k < (sequenceOf i v).length) :
    (sequenceOf i (restAfter i v k)).length = (sequenceOf i v).length - k := by
  rw [← drop_sequenceOf hk, List.length_drop]

theorem take_succ_sequenceOf (hk : k < (sequenceOf i v).length) :
    (sequenceOf i v).take (k + 1) = (sequenceOf i v).take k ++ [encoderByte i (restAfter i v k)] := by
  rw [List.take_add, drop_sequenceOf hk, sequenceOf_eq i (restAfter i v k)]
  rfl

theorem not_last_restAfter (hk : k + 1 < (sequenceOf i v).length) : encoderLast i (restAfter i v k) = false :=
  not_last_of_one_lt (by rw [length_sequenceOf_restAfter (by omega)]; omega)

theorem last_restAfter (hk : k + 1 = (sequenceOf i v).length) : encoderLast i (restAfter i v k) = true :=
  last_of_length_one (by rw [length_sequenceOf_restAfter (by omega)]; omega)

/-- The bytes before the last one have the continuation flag set. -/
theorem all_contFlag_take (hk : k < (sequenceOf i v).length) : ((sequenceOf i v).take k).all contFlag = true := by
  induction k with
  | zero => rfl
  | succ k ih =>
    rw [take_succ_sequenceOf (by omega), List.all_append, ih (by omega), List.all_cons, contFlag_encoderByte,
      not_last_restAfter hk]
    rfl

end

/-- A minimal sequence is continuation bytes and one last byte, the one for what is then left in `REM`. -/
theorem exists_sequenceOf_eq_append (i : Instr) (v : Value) :
    ∃ pre, sequenceOf i v = pre ++ [encoderByte i (restAfter i v pre.length)] ∧ pre.all contFlag = true ∧
      contFlag (encoderByte i (restAfter i v pre.length)) = false := by
  obtain ⟨k, hk⟩ := Nat.exists_eq_add_of_lt (sequenceOf_length_pos i v)
  rw [Nat.zero_add] at hk
  have hlt : k < (sequenceOf i v).length := by omega
  refine ⟨(sequenceOf i v).take k, ?_, all_contFlag_take hlt, ?_⟩ <;> rw [List.length_take_of_le hlt.le]
  · rw [← take_succ_sequenceOf hlt, List.take_of_length_le hk.le]
  · rw [contFlag_encoderByte, last_restAfter hk.symm]
    rfl

end Sys2Proof.Machine
end

section
/-! PROOF. `ENCU` beat by beat, and the beats of an encoder over the bytes that its sink accepts
(40_unsigned_encoder.md R70, R71). -/

namespace Sys2Proof.Machine

/-- Settles O13: the issue step and the three answered ways a beat can go. -/
theorem encuIssueAndBeat : Obligations.EncuIssueAndBeat := by
  intro v s hl
  refine ⟨rfl, fun hp => (exec_encoder_idle_iff (.inl rfl) hp).2 ⟨hl, rfl⟩, fun r c snk hp ho hr hc => ?_⟩
  have hmove {t : State} (hm : EncoderMove (.encu v) s t) : exec (.encu v) s = .next t :=
    (exec_encoder_run_iff (.inl rfl) hp ho).2 ⟨hl, hm⟩
  have hbyte : BitVec.ofBool (r >>> 7 != 0) ++ r.extractLsb' 0 7 = encoderByte (.encu v) r := rfl
  have hlast : encoderLast (.encu v) r = !(r >>> 7 != 0) := rfl
  rw [hbyte]
  refine ⟨fun ha => hmove (.refused hr hc ha), fun ha hmore => hmove (.goesOn hr hc ha ?_), fun ha hdone => ?_⟩
  · simpa [hlast] using hmore
  · rw [hmove (.completes hr hc ha (by simp [hlast, hdone])), ← hdone]
    rfl

/-- In `s` encoder `i` runs and has written the first `k` bytes of the sequence of `v` to the sink that was `snk`
(R71, R91). -/
structure Written (i : Instr) (v : Value) (snk : Sink) (k : Nat) (s : State) : Prop where
  phase : s.phase = .run
  opsel : s.opsel = .holds i.op
  rem : s.rem = .holds (restAfter i v k)
  cnt : s.cnt = .holds (BitVec.ofNat 4 k)
  sink : s.sink = snk.accepted ((sequenceOf i v).take k)

theorem written_issue (i : Instr) (v : Value) (s : State) : Written i v s.sink 0 ((s.issueEncoder v).launch i.op) :=
  ⟨rfl, rfl, rfl, rfl, (Sink.accepted_nil _).symm⟩

/-- The operation of encoder `i` on `v` has ended with `OK` and has written the whole sequence to the sink that was
`snk`. -/
structure WholeWritten (i : Instr) (v : Value) (snk : Sink) (t : State) : Prop where
  phase : t.phase = .idle
  status : t.status = .holds 0
  valOut : t.valOut = .noValue
  count : t.count = .holds (BitVec.ofNat 4 (sequenceOf i v).length)
  sink : t.sink = snk.accepted (sequenceOf i v)
  rem : t.rem = .holds (restAfter i v (sequenceOf i v).length)
  cnt : t.cnt = .holds (BitVec.ofNat 4 (sequenceOf i v).length)

section

variable {i : Instr} {v : Value} {snk : Sink} {k : Nat} {s : State} (hs : Written i v snk k s)
  (hacc : snk.accepts (sequenceOf i v).length = true)
include hs hacc

/-- The answer to the offer of byte `k`. -/
theorem Written.answer (hk : k < (sequenceOf i v).length) :
    s.sink.answer (encoderByte i (restAfter i v k)) = some (.ack, snk.accepted ((sequenceOf i v).take (k + 1))) := by
  rw [hs.sink, take_succ_sequenceOf hk]
  exact Sink.answer_accepted _ hacc (by rw [List.length_take_of_le hk.le]; exact hk)

/-- The beat that writes a byte that is not the last one. -/
theorem Written.write (hk : k + 1 < (sequenceOf i v).length) :
    ∃ t, EncoderMove i s t ∧ Written i v snk (k + 1) t := by
  refine ⟨_, .goesOn hs.rem hs.cnt (hs.answer hacc (by omega)) (not_last_restAfter hk),
    hs.phase, hs.opsel, ?_, ?_, rfl⟩
  · exact congrArg Reg.holds (restAfter_succ ..).symm
  · exact congrArg Reg.holds (BitVec.ofNat_add ..).symm

/-- The beat that writes the last byte ends the operation. -/
theorem Written.complete (hk : k + 1 = (sequenceOf i v).length) :
    ∃ t, EncoderMove i s t ∧ WholeWritten i v snk t := by
  have hcnt : BitVec.ofNat 4 k + 1 = BitVec.ofNat 4 (sequenceOf i v).length := by
    rw [← hk, BitVec.ofNat_add]; rfl
  refine ⟨_, .completes hs.rem hs.cnt (hs.answer hacc (by omega)) (last_restAfter hk),
    rfl, rfl, rfl, ?_, ?_, ?_, ?_⟩
  · exact congrArg Reg.holds hcnt
  · exact congrArg snk.accepted (List.take_of_length_le hk.ge)
  · exact congrArg Reg.holds (hk ▸ restAfter_succ ..).symm
  · exact congrArg Reg.holds hcnt

end

section

variable {i : Instr} {v : Value} {s : State} (hi : i = .encu v ∨ i = .encs v)
include hi

theorem Written.beats_succ {snk : Sink} {k n : Nat} {s' : State} (hs : Written i v snk k s)
    (hl : snk.link = .exclusive) (hm : EncoderMove i s s') : beats i (n + 1) s = beats i n s' := by
  have hl' : s.sink.link = .exclusive := by rw [hs.sink, Sink.accepted_link, hl]
  simp only [beats, hs.phase, (exec_encoder_run_iff hi hs.phase hs.opsel).2 ⟨hl', hm⟩]

theorem performIn_encoder (n : Nat) (hp : s.phase = .idle) (hl : s.sink.link = .exclusive) :
    performIn n i s = beats i n ((s.issueEncoder v).launch i.op) := by
  simp only [performIn, (exec_encoder_idle_iff hi hp).2 ⟨hl, rfl⟩]

variable (hp : s.phase = .idle) (hl : s.sink.link = .exclusive)
  (hacc : s.sink.accepts (sequenceOf i v).length = true)
include hp hl hacc

/-- The loop invariant: an encoder takes one beat for each byte before the last one. -/
theorem performIn_encoder_written {k : Nat} (hk : k < (sequenceOf i v).length) :
    ∃ t, Written i v s.sink k t ∧ ∀ n, performIn (k + n) i s = beats i n t := by
  induction k with
  | zero => exact ⟨_, written_issue i v s, fun n => by rw [Nat.zero_add, performIn_encoder hi n hp hl]⟩
  | succ k ih =>
    obtain ⟨t, ht, hbeats⟩ := ih (by omega)
    obtain ⟨u, hm, hu⟩ := ht.write hacc hk
    exact ⟨u, hu, fun n => by rw [Nat.add_assoc, Nat.add_comm 1, hbeats, ht.beats_succ hi hl hm]⟩

/-- An encoder whose sink accepts its whole sequence ends with `OK`, the sequence written. -/
theorem perform_encoder_accepted : ∃ t, perform i s = .next t ∧ WholeWritten i v s.sink t := by
  obtain ⟨k, hk⟩ := Nat.exists_eq_add_of_lt (sequenceOf_length_pos i v)
  have hle := sequenceOf_length_le i v
  obtain ⟨t, ht, hbeats⟩ := performIn_encoder_written hi hp hl hacc (k := k) (by omega)
  obtain ⟨u, hm, hu⟩ := ht.complete hacc (by omega)
  have hmax : Config.MAXLEN = k + (9 - k + 1) := by rw [Config.MAXLEN]; omega
  exact ⟨u, by rw [perform, hmax, hbeats, ht.beats_succ hi hl hm, beats_idle i _ hu.phase], hu⟩

end

/-- Settles O31: the operation to its end, and the loop invariant before each byte. -/
theorem encuAppendsTheClosedForm : Obligations.EncuAppendsTheClosedForm := by
  intro v s hp hl hacc
  have hlen : (sequenceOf (.encu v) v).length = Wire.unsignedLength v := encodeUnsigned_length v
  rw [← hlen] at hacc ⊢
  refine ⟨?_, fun k hk => ?_⟩
  · obtain ⟨t, ht, hidle, hst, hval, hcount, hsnk, hrem, hcnt⟩ :=
      perform_encoder_accepted (i := .encu v) (.inl rfl) hp hl hacc
    rw [restAfter_encu] at hrem
    exact ⟨t, ht, hidle, hst, hval, hcount, hsnk, hrem, hcnt⟩
  · obtain ⟨t, ⟨hrun, -, hrem, hcnt, hsnk⟩, hbeats⟩ :=
      performIn_encoder_written (i := .encu v) (.inl rfl) hp hl hacc hk
    rw [restAfter_encu] at hrem
    exact ⟨t, hbeats 0, hrun, hrem, hcnt, hsnk⟩

end Sys2Proof.Machine
end

section
/-! PROOF. The minimal unsigned sequence by itself: legal, of the value it encodes, and no longer than any other
(40_unsigned_encoder.md R73). -/

namespace Sys2Proof.Machine

/-- A value is its lowest group and what is left above it. -/
theorem low7Value_add_encuRest (v : Value) : (low7Value v).zeroExtend 64 + encuRest v <<< 7 = v := by
  apply BitVec.eq_of_toNat_eq
  have hlt := v.isLt
  simp only [low7Value, encuRest, lsr64, BitVec.toNat_add, BitVec.toNat_setWidth, BitVec.extractLsb'_toNat,
    BitVec.toNat_shiftLeft, BitVec.toNat_ushiftRight, Nat.shiftRight_eq_div_pow, Nat.shiftLeft_eq]
  omega

theorem encuRest_of_not_more {v : Value} (h : moreFlag v = false) : encuRest v = 0 := by
  simpa [moreFlag, encuRest] using h

theorem encuRest_lt {v : Value} (h : moreFlag v = true) : (encuRest v).toNat < v.toNat := by
  have hge := (moreFlag_iff v).1 h
  rw [encuRest, lsr64_toNat]
  omega

/-- The payloads of a minimal unsigned sequence add up to its value, group by group. -/
theorem payloadSum_encodeUnsigned (v : Value) : Wire.payloadSum (Wire.encodeUnsigned v) = v := by
  induction hn : v.toNat using Nat.strong_induction_on generalizing v with
  | _ n ih =>
    have hrest : Wire.payloadSum (if moreFlag v then Wire.encodeUnsigned (encuRest v) else []) = encuRest v := by
      cases hmore : moreFlag v with
      | false => exact (encuRest_of_not_more hmore).symm
      | true => exact ih _ (hn ▸ encuRest_lt hmore) _ rfl
    rw [encodeUnsigned_eq, Wire.payloadSum, hrest, encuByte, low7_wireByte, low7Value_add_encuRest]

/-- The 10th byte of an unsigned sequence carries bit 63 alone (R72). -/
theorem tailRejected_encuByte {r : Value} (h : r.toNat < 2) :
    tailRejected (decoderTail .decu) (encuByte r) = false := by
  obtain rfl | rfl : r = 0#64 ∨ r = 1#64 := by bv_omega
  · decide
  · decide

theorem legalUnsigned_encodeUnsigned (v : Value) : Wire.legalUnsigned (Wire.encodeUnsigned v) = true := by
  obtain ⟨pre, hseq, hpre, hlast⟩ := exists_sequenceOf_eq_append (.encu v) v
  have hlen := sequenceOf_length_le (.encu v) v
  rw [hseq, List.length_append, List.length_singleton] at hlen
  have htop (h9 : pre.length = 9) : (restAfter (.encu v) v pre.length).toNat < 2 := by
    have hlt := v.isLt
    rw [h9, restAfter_encu_toNat]
    omega
  have hlegal := legalFor_append (i := .decu) (.inl rfl) hpre (by omega) hlast fun h9 => tailRejected_encuByte (htop h9)
  rw [← hseq] at hlegal
  exact hlegal

/-- The byte for a value that fits one group carries the whole value. -/
theorem low7_encuByte_ne_zero {r : Value} (hr : r.toNat ≠ 0) (hlast : moreFlag r = false) : low7 (encuByte r) ≠ 0 := by
  have hlt : ¬ 128 ≤ r.toNat := fun hge => by simp [(moreFlag_iff r).2 hge] at hlast
  have hpayload : (low7 (encuByte r)).toNat = r.toNat := by
    rw [encuByte, low7_wireByte, low7Value, BitVec.extractLsb'_toNat, Nat.shiftRight_zero, Nat.mod_eq_of_lt (by omega)]
  intro hzero
  rw [hzero] at hpayload
  exact hr hpayload.symm

/-- The last byte of a minimal unsigned sequence of two or more bytes carries what makes its length necessary. -/
theorem low7_last_encodeUnsigned {v : Value} {b : Byte} (h2 : 2 ≤ (Wire.encodeUnsigned v).length)
    (hb : (Wire.encodeUnsigned v).getLast? = some b) : low7 b ≠ 0 := by
  obtain ⟨pre, hseq, -, hlast⟩ := exists_sequenceOf_eq_append (.encu v) v
  change Wire.encodeUnsigned v = pre ++ [encuByte (restAfter (.encu v) v pre.length)] at hseq
  obtain rfl : encuByte (restAfter (.encu v) v pre.length) = b := by simpa [hseq] using hb
  have hlen : Wire.unsignedLength v = pre.length + 1 := by
    rw [← encodeUnsigned_length, hseq, List.length_append, List.length_singleton]
  rw [encodeUnsigned_length, hlen] at h2
  obtain ⟨hlo, -⟩ := (unsignedLength_eq_succ_iff v (by omega)).1 hlen
  refine low7_encuByte_ne_zero ?_ ((contFlag_wireByte _ _).symm.trans hlast)
  rw [restAfter_encu_toNat]
  exact (Nat.div_pos hlo (Nat.two_pow_pos _)).ne'

theorem one_le_length_of_isSequence {bs : List Byte} (h : Wire.isSequence bs = true) : 1 ≤ bs.length := by
  obtain ⟨pre, b, rfl, -⟩ := isSequence_iff.1 h
  simp

/-- The payloads of a sequence hold no value longer than it (R59). -/
theorem unsignedLength_unsignedValue_le {bs : List Byte} (h : Wire.isSequence bs = true) :
    Wire.unsignedLength (Wire.unsignedValue bs) ≤ bs.length :=
  (Wire.unsignedLength_le_iff _ (one_le_length_of_isSequence h)).2 (payloadSum_lt bs)

/-- Settles O41: what the payloads add up to, the group of the last byte, and the groups that any sequence needs. -/
theorem unsignedSequenceIsMinimal : Obligations.UnsignedSequenceIsMinimal := by
  refine fun v => ⟨legalUnsigned_encodeUnsigned v, payloadSum_encodeUnsigned v,
    fun h2 b hb => low7_last_encodeUnsigned h2 hb, ?_⟩
  rintro bs hlegal rfl
  obtain ⟨hseq, -⟩ := Bool.and_eq_true_iff.1 hlegal
  rw [encodeUnsigned_length]
  exact unsignedLength_unsignedValue_le hseq

end Sys2Proof.Machine
end

section
/-! PROOF. The unsigned round trip through the sink (20_memory.md R41; 40_unsigned_encoder.md R74). -/

namespace Sys2Proof.Machine

/-- A decoder given the contents of a sink that hold one legal sequence reads them all. -/
theorem perform_decoder_presentSink {i : Instr} {t : State} (hi : i = .decu ∨ i = .decs) (hp : t.phase = .idle)
    (hlegal : legalFor i t.sink.data = true) :
    ∃ u, perform i t.presentSink = .next u ∧ u.phase = .idle ∧ u.status = .holds 0 ∧
      u.valOut = .holds (valueFor i t.sink.data) ∧ u.count = .holds (BitVec.ofNat 4 t.sink.data.length) ∧
      u.source.unread = [] := by
  have hyields : t.presentSink.source.yields t.sink.data = true := by simp [Source.yields]
  obtain ⟨u, hu, hidle, hst, hval, hcount, hsrc⟩ :=
    perform_decoder_legal (s := t.presentSink) hi hp rfl hlegal hyields
  exact ⟨u, hu, hidle, hst, hval, hcount, by simp [hsrc, Source.advanced, Source.unread]⟩

/-- Settles O35: what `ENCU` appends is legal and has the value, so `DECU` reads it back. -/
theorem unsignedRoundTrip : Obligations.UnsignedRoundTrip := by
  intro v s hp hsink
  have hacc : s.sink.accepts (sequenceOf (.encu v) v).length = true := by rw [hsink]; rfl
  obtain ⟨t, ht, htw⟩ := perform_encoder_accepted (i := .encu v) (.inl rfl) hp (by rw [hsink]) hacc
  have hdata : t.sink.data = Wire.encodeUnsigned v := by rw [htw.sink, hsink]; rfl
  obtain ⟨u, hu, hidle, hst, hval, hcount, hunread⟩ := perform_decoder_presentSink (i := .decu) (.inl rfl) htw.phase
    (by rw [hdata]; exact legalUnsigned_encodeUnsigned v)
  rw [hdata] at hval hcount
  refine ⟨t, u, ht, hu, htw.status, hidle, hst, ?_, hcount.trans htw.count.symm, hdata ▸ hcount, hunread⟩
  exact hval.trans (congrArg Reg.holds (payloadSum_encodeUnsigned v))

end Sys2Proof.Machine
end

section
/-! PROOF. `DECU` beat by beat, and the value it rebuilds from a legal sequence (41_unsigned_decoder.md R80, R81). -/

namespace Sys2Proof.Machine

/-- The registers of a decoder that has read the first `k` bytes, in terms of `k` (R81, R101). -/
theorem Decoding.registers_take {i : Instr} {bs : List Byte} {k : Nat} {t : State} (ht : Decoding i (bs.take k) t)
    (hk : k ≤ bs.length) :
    t.phase = .run ∧ t.shift = .holds (BitVec.ofNat 7 (7 * k)) ∧ t.cnt = .holds (BitVec.ofNat 4 k) ∧
      t.acc = .holds (Wire.payloadSum (bs.take k)) := by
  obtain ⟨hrun, -, hacc, hshift, hcnt, -, -⟩ := ht
  rw [shiftAfter, List.length_take_of_le hk] at hshift
  rw [List.length_take_of_le hk] at hcnt
  exact ⟨hrun, hshift, hcnt, hacc⟩

/-- Settles O33: the operation to its end, and the loop invariant before each byte. -/
theorem decuRebuildsTheUnsignedValue : Obligations.DecuRebuildsTheUnsignedValue := by
  intro bs s hp hl hlegal hy
  refine ⟨perform_decoder_legal (.inl rfl) hp hl hlegal hy, fun k hk => ?_⟩
  obtain ⟨t, ht, hread⟩ := performIn_decoder_legal (i := .decu) (.inl rfl) hp hl hlegal hy hk
  exact ⟨t, ht, hread.registers_take hk.le⟩

/-- The payload of a byte is the byte with its continuation flag masked off (R56). -/
theorem low7_zeroExtend (b : Byte) : (low7 b).zeroExtend 64 = (b &&& 0x7f).zeroExtend 64 := by
  revert b; decide

theorem withPayload_eq (a : Value) (k : BitVec 7) (b : Byte) :
    withPayload a k b = a ||| ((b &&& 0x7f).zeroExtend 64) <<< k.toNat := by
  rw [withPayload, payloadAt, low7_zeroExtend, lsl64]

/-- `DECU` delivers the accumulator as it is (R84). -/
theorem decodedValue_decu (a : Value) (k : BitVec 7) (b : Byte) : decodedValue .decu a k b = withPayload a k b := rfl

/-- Settles O15: the issue step and the four answered ways a beat can go. -/
theorem decuIssueAndBeat : Obligations.DecuIssueAndBeat := by
  intro s hl
  refine ⟨opField_append 0b01#2 0, fun hp => (exec_decoder_idle_iff (.inl rfl) hp).2 ⟨hl, rfl⟩,
    fun c src hp ho hc => ?_⟩
  have hmove {t : State} (hm : DecoderMove .decu s t) : exec .decu s = .next t :=
    (exec_decoder_run_iff (.inl rfl) hp ho).2 ⟨hl, hm⟩
  refine ⟨fun ha => hmove (.ends hc ha), fun k b hk ha => ?_⟩
  have h63 : k.toNat = 63 ↔ k = 63 := by bv_omega
  refine ⟨fun hk63 h0 h1 => ?_, fun a hacc hle => ?_⟩
  · exact hmove (.overflows hc ha hk (h63.2 hk63) ((tailRejected_decu_iff b).2 ⟨h0, h1⟩))
  rw [← withPayload_eq a k b]
  refine ⟨fun hne hcont => ?_, fun hlegal hlast => ?_⟩
  · exact hmove (.goesOn hc ha hk hacc hle (fun h => absurd (h63.1 h) hne) hcont)
  · have htail (h : k.toNat = 63) : tailRejected (decoderTail .decu) b = false :=
      tailRejected_legal (.inl rfl) ((hlegal (h63.1 h)).imp_right fun h1 => .inl ⟨rfl, h1⟩)
    rw [← decodedValue_decu]
    exact hmove (.completes hc ha hk hacc hle htail hlast)

end Sys2Proof.Machine
end

section
/-! PROOF. `ENCS` beat by beat, and the sequence it appends (42_signed_encoder.md R90, R91). -/

namespace Sys2Proof.Machine

theorem encsRest_of_done {r : Value} (h : doneFlag r = true) : encsRest r = r := by
  simp [encsRest, h]

/-- Settles O14: the issue step and the three answered ways a beat can go. -/
theorem encsIssueAndBeat : Obligations.EncsIssueAndBeat := by
  intro v s hl
  refine ⟨rfl, fun hp => (exec_encoder_idle_iff (.inr rfl) hp).2 ⟨hl, rfl⟩,
    fun r c snk done hp ho hr hc hdone => ?_⟩
  have hmove {t : State} (hm : EncoderMove (.encs v) s t) : exec (.encs v) s = .next t :=
    (exec_encoder_run_iff (.inr rfl) hp ho).2 ⟨hl, hm⟩
  obtain rfl : done = encoderLast (.encs v) r := hdone
  have hbyte : BitVec.ofBool (!encoderLast (.encs v) r) ++ r.extractLsb' 0 7 = encoderByte (.encs v) r := rfl
  rw [hbyte]
  refine ⟨fun ha => hmove (.refused hr hc ha), fun ha hmore => ?_, fun ha hlast => ?_⟩
  · have hrest : encoderRest (.encs v) r = (r.sshiftRight 6).sshiftRight 1 :=
      (Wire.encsRest_of_more hmore).trans (asr64_asr64 r 6 1).symm
    exact hrest ▸ hmove (.goesOn hr hc ha hmore)
  · have hrest : .holds (encoderRest (.encs v) r) = s.rem :=
      (congrArg Reg.holds (encsRest_of_done hlast)).trans hr.symm
    rw [hmove (.completes hr hc ha hlast), State.byteWritten, hrest]
    rfl

/-- Before each byte of its sequence `ENCS` has left the value shifted arithmetically past the groups written (R91). -/
theorem restAfter_encs (v w : Value) {k : Nat} (hk : k < (sequenceOf (.encs w) v).length) :
    restAfter (.encs w) v k = asr64 v (7 * k) := by
  induction k with
  | zero => exact (BitVec.sshiftRight_zero (x := v)).symm
  | succ k ih =>
    have hmore : doneFlag (asr64 v (7 * k)) = false := ih (by omega) ▸ not_last_restAfter hk
    rw [restAfter_succ, ih (by omega), Nat.mul_succ, ← asr64_asr64]
    exact Wire.encsRest_of_more hmore

/-- Settles O32: the operation to its end, and the loop invariant before each byte. -/
theorem encsAppendsTheClosedForm : Obligations.EncsAppendsTheClosedForm := by
  intro v s hp hl hacc
  have hlen : (sequenceOf (.encs v) v).length = Wire.signedLength v := encodeSigned_length v
  rw [← hlen] at hacc ⊢
  refine ⟨?_, fun k hk => ?_⟩
  · obtain ⟨t, ht, hidle, hst, hval, hcount, hsnk, -, -⟩ :=
      perform_encoder_accepted (i := .encs v) (.inr rfl) hp hl hacc
    exact ⟨t, ht, hidle, hst, hval, hcount, hsnk⟩
  · obtain ⟨t, ⟨hrun, -, hrem, hcnt, hsnk⟩, hbeats⟩ :=
      performIn_encoder_written (i := .encs v) (.inr rfl) hp hl hacc hk
    rw [restAfter_encs v v hk] at hrem
    exact ⟨t, hbeats 0, hrun, hrem, hcnt, hsnk⟩

end Sys2Proof.Machine
end

section
/-! PROOF. The minimal signed sequence by itself: legal, of the value it encodes, no longer than any other, and its 10th
byte the sign (42_signed_encoder.md R92, R93). -/

namespace Sys2Proof.Machine

/-- The last group of a 64-bit value, past its bit 63, is its sign. -/
theorem asr64_63 (v : Value) : asr64 v 63 = if v.toInt < 0 then ones64 else 0 := by
  have hlo := BitVec.le_toInt v
  have hhi := BitVec.toInt_lt (x := v)
  have ones : ones64.toInt = -1 := by decide
  have zero : (0 : Value).toInt = 0 := by decide
  refine BitVec.eq_of_toInt_eq ?_
  rw [asr64_toInt]
  split
  · omega
  · omega

theorem encsByte_asr64_63 (v : Value) : encsByte (asr64 v 63) = if v.toInt < 0 then 0x7f else 0x00 := by
  rw [asr64_63]
  split <;> decide

/-- A minimal signed sequence is continuation bytes and the byte for the value left above their groups. -/
theorem exists_encodeSigned_eq_append (v : Value) :
    ∃ pre, Wire.encodeSigned v = pre ++ [encsByte (asr64 v (7 * pre.length))] ∧ pre.all contFlag = true ∧
      contFlag (encsByte (asr64 v (7 * pre.length))) = false := by
  obtain ⟨pre, hseq, hpre, hlast⟩ := exists_sequenceOf_eq_append (.encs v) v
  have hrest : restAfter (.encs v) v pre.length = asr64 v (7 * pre.length) :=
    restAfter_encs v v (by rw [hseq, List.length_append, List.length_singleton]; omega)
  rw [hrest] at hseq hlast
  exact ⟨pre, hseq, hpre, hlast⟩

theorem encodeSigned_length_le (v : Value) : (Wire.encodeSigned v).length ≤ 10 :=
  sequenceOf_length_le (.encs v) v

/-- Settles O43: the 10th byte is the one for the sign. -/
theorem signedTailIsTheSign : Obligations.SignedTailIsTheSign := by
  refine fun v => ⟨encodeSigned_length_le v, fun h10 => ?_⟩
  obtain ⟨pre, hseq, -⟩ := exists_encodeSigned_eq_append v
  have hlen : pre.length = 9 := by simpa [hseq] using h10
  rw [hseq, List.getLast?_concat, hlen, encsByte_asr64_63]

theorem legalSigned_encodeSigned (v : Value) : Wire.legalSigned (Wire.encodeSigned v) = true := by
  obtain ⟨pre, hseq, hpre, hlast⟩ := exists_encodeSigned_eq_append v
  have hlen := encodeSigned_length_le v
  rw [hseq, List.length_append, List.length_singleton] at hlen
  have hlegal := legalFor_append (i := .decs) (.inr rfl) hpre (by omega) hlast fun h9 => by
    rw [h9, encsByte_asr64_63]
    split <;> decide
  rw [hseq]
  exact hlegal

/-- Induction along the bytes of encoder `i`: from the values with which it ends up, one beat at a time. -/
theorem encoder_induction (i : Instr) {P : Value → Prop} (last : ∀ v, encoderLast i v = true → P v)
    (more : ∀ v, encoderLast i v = false → P (encoderRest i v) → P v) (v : Value) : P v := by
  induction hn : (sequenceOf i v).length using Nat.strong_induction_on generalizing v with
  | _ n ih =>
    cases hlast : encoderLast i v with
    | true => exact last v hlast
    | false =>
      refine more v hlast (ih _ ?_ _ rfl)
      rw [← hn, sequenceOf_of_not_last hlast, List.length_cons]
      exact Nat.lt_succ_self _

/-- ORing the mask of sign extension in above the bits of `a` adds it. -/
theorem or_signMask {a : Value} {T : Nat} (ha : a.toNat < 2 ^ T) : a ||| signMask T = a + signMask T := by
  refine (BitVec.add_eq_or_of_and_eq_zero _ _ (BitVec.eq_of_getLsbD_eq fun j hj => ?_)).symm
  rw [BitVec.getLsbD_and, signMask_getLsbD, BitVec.getLsbD_zero]
  by_cases h : j < T
  · simp [h]
  · rw [getLsbD_of_toNat_lt ha (Nat.le_of_not_lt h), Bool.false_and]

/-- The signed value of a sequence is its first payload and, one group higher, the signed value of the rest. -/
theorem signedValue_cons (a : Byte) (pre : List Byte) (b : Byte) :
    Wire.signedValue (a :: (pre ++ [b])) = (low7 a).zeroExtend 64 + Wire.signedValue (pre ++ [b]) <<< 7 := by
  have hlt := payloadSum_lt (pre ++ [b])
  have hlt' := payloadSum_lt (a :: pre ++ [b])
  have hmask : signMask (7 * (pre.length + 1)) <<< 7 = signMask (7 * (pre.length + 2)) :=
    (BitVec.shiftLeft_add ..).symm
  rw [List.length_append, List.length_singleton] at hlt hlt'
  rw [← List.cons_append, signedValue_append, signedValue_append]
  cases signFlag b with
  | false => rfl
  | true =>
    rw [if_pos rfl, if_pos rfl, or_signMask hlt, or_signMask hlt', BitVec.shiftLeft_add_distrib, List.length_cons, hmask,
      ← BitVec.add_assoc]
    rfl

/-- A value is its lowest group and what is left above it. -/
theorem low7Value_add_asr64 (v : Value) : (low7Value v).zeroExtend 64 + asr64 v 7 <<< 7 = v := by
  have hshift : asr64 v 7 <<< 7 = encuRest v <<< 7 := by
    ext j hj
    rw [BitVec.getElem_shiftLeft, BitVec.getElem_shiftLeft]
    by_cases hlow : j < 7
    · simp [hlow]
    · have hin : 7 + (j - 7) < 64 := by omega
      simp [asr64, encuRest, lsr64, BitVec.getElem_sshiftRight, hlow, hin]
  rw [hshift, low7Value_add_encuRest]

theorem low7Value_toNat (v : Value) : (low7Value v).toNat = v.toNat % 2 ^ 7 := by
  rw [low7Value, BitVec.extractLsb'_toNat, Nat.shiftRight_zero]

/-- A value with which `ENCS` ends is the number that its lowest group forms. -/
theorem signExtend_low7Value {v : Value} (h : doneFlag v = true) : (low7Value v).signExtend 64 = v := by
  have hrange := (doneFlag_iff v).1 h
  have hlt := v.isLt
  refine BitVec.eq_of_toInt_eq ?_
  simp only [BitVec.toInt_signExtend_of_le (show 7 ≤ 64 by decide), BitVec.toInt_eq_toNat_cond, low7Value_toNat]
    at hrange ⊢
  omega

theorem signedValue_encsByte {v : Value} (h : doneFlag v = true) : Wire.signedValue [encsByte v] = v := by
  have hseq : Wire.isSequence [encsByte v] = true :=
    isSequence_iff.2 ⟨[], _, rfl, rfl, by simp [encsByte, contFlag_wireByte, h], Nat.zero_le 9⟩
  have hsum : Wire.payloadSum [encsByte v] = (low7Value v).zeroExtend 64 := by
    simp [Wire.payloadSum, encsByte, low7_wireByte]
  rw [signedValue_eq_signExtend hseq (by simp), hsum]
  simp [signExtend_low7Value h]

/-- The minimal signed sequence has the value it encodes. -/
theorem signedValue_encodeSigned (v : Value) : Wire.signedValue (Wire.encodeSigned v) = v := by
  induction v using encoder_induction (.encs 0) with
  | last v h =>
    have hdone : doneFlag v = true := h
    rw [encodeSigned_eq, if_pos hdone, signedValue_encsByte hdone]
  | more v h ih =>
    have hdone : doneFlag v = false := h
    have hrest : encoderRest (.encs 0) v = asr64 v 7 := Wire.encsRest_of_more hdone
    obtain ⟨pre, hseq, -⟩ := exists_encodeSigned_eq_append (asr64 v 7)
    rw [hrest, hseq] at ih
    rw [encodeSigned_eq, hdone, if_neg Bool.false_ne_true, Wire.encsRest_of_more hdone, hseq, signedValue_cons, ih,
      encsByte, low7_wireByte, low7Value_add_asr64]

/-- The signed value of a sequence fits as many groups as it has bytes (R59). -/
theorem signedLength_signedValue_le {bs : List Byte} (h : Wire.isSequence bs = true) :
    Wire.signedLength (Wire.signedValue bs) ≤ bs.length := by
  have hone := one_le_length_of_isSequence h
  by_cases h9 : bs.length ≤ 9
  · have hlo := BitVec.le_toInt ((Wire.payloadSum bs).setWidth (7 * bs.length))
    have hhi := BitVec.toInt_lt (x := (Wire.payloadSum bs).setWidth (7 * bs.length))
    rw [Wire.signedLength_le_iff _ hone, Wire.fitsSigned_iff, signedValue_eq_signExtend h h9,
      BitVec.toInt_signExtend_of_le (by omega)]
    exact ⟨hlo, hhi⟩
  · obtain ⟨-, hle, -⟩ := Wire.signedLength_spec (Wire.signedValue bs)
    omega

/-- Settles O42: the value group by group, the value left before each byte, and the groups that any sequence needs. -/
theorem signedSequenceIsMinimal : Obligations.SignedSequenceIsMinimal := by
  intro v
  have hlen : (sequenceOf (.encs v) v).length = Wire.signedLength v := encodeSigned_length v
  have hpos := sequenceOf_length_pos (.encs v) v
  refine ⟨legalSigned_encodeSigned v, signedValue_encodeSigned v, fun k hk => ?_, ?_, ?_⟩
  · rw [← restAfter_encs v v (by omega)]
    exact not_last_restAfter (i := .encs v) (by omega)
  · rw [← restAfter_encs v v (by omega)]
    exact last_restAfter (i := .encs v) (by omega)
  · rintro bs hlegal rfl
    obtain ⟨hseq, -⟩ := Bool.and_eq_true_iff.1 hlegal
    rw [encodeSigned_length]
    exact signedLength_signedValue_le hseq

end Sys2Proof.Machine
end

section
/-! PROOF. The signed round trip through the sink (20_memory.md R41; 42_signed_encoder.md R94). -/

namespace Sys2Proof.Machine

/-- Settles O36: what `ENCS` appends is legal and has the value, so `DECS` reads it back. -/
theorem signedRoundTrip : Obligations.SignedRoundTrip := by
  intro v s hp hsink
  have hacc : s.sink.accepts (sequenceOf (.encs v) v).length = true := by rw [hsink]; rfl
  obtain ⟨t, ht, htw⟩ := perform_encoder_accepted (i := .encs v) (.inr rfl) hp (by rw [hsink]) hacc
  have hdata : t.sink.data = Wire.encodeSigned v := by rw [htw.sink, hsink]; rfl
  obtain ⟨u, hu, hidle, hst, hval, hcount, hunread⟩ := perform_decoder_presentSink (i := .decs) (.inr rfl) htw.phase
    (by rw [hdata]; exact legalSigned_encodeSigned v)
  rw [hdata] at hval hcount
  refine ⟨t, u, ht, hu, htw.status, hidle, hst, ?_, hcount.trans htw.count.symm, hdata ▸ hcount, hunread⟩
  exact hval.trans (congrArg Reg.holds (signedValue_encodeSigned v))

end Sys2Proof.Machine
end

section
/-! PROOF. Signed and unsigned sequences of a value that is not negative (42_signed_encoder.md R95). -/

namespace Sys2Proof.Machine

theorem wireByte_or_cont (c : Bool) (p : Payload) : wireByte c p ||| 0x80 = wireByte true p := by
  revert c p; decide

theorem signFlag_wireByte (c : Bool) (p : Payload) : signFlag (wireByte c p) = p.getLsbD 6 := by
  revert c p; decide

/-- Of a value that is not negative `ENCS` leaves what `ENCU` leaves. -/
theorem encsRest_eq_encuRest {v : Value} (hv : 0 ≤ v.toInt) (h : doneFlag v = false) : encsRest v = encuRest v := by
  have hmsb : v.msb = false := by simpa [BitVec.msb_eq_toInt] using hv
  rw [Wire.encsRest_of_more h, asr64, BitVec.sshiftRight_eq_of_msb_false hmsb, encuRest, lsr64]

/-- Of a value of one group `ENCU` ends with a byte whose bit 6 says whether `ENCS` needs another one. -/
theorem signFlag_encuByte {v : Value} (h : moreFlag v = false) : signFlag (encuByte v) = !doneFlag v := by
  rw [← Bool.not_eq_true, moreFlag_iff] at h
  have hint : v.toInt = v.toNat := by rw [BitVec.toInt_eq_toNat_cond]; omega
  rw [encuByte, signFlag_wireByte, BitVec.getLsbD, low7Value_toNat, Nat.testBit_eq_decide_div_mod_eq,
    Bool.eq_iff_iff, Bool.not_eq_true', ← Bool.not_eq_true, doneFlag_iff, decide_eq_true_eq]
  omega

theorem doneFlag_of_more {v : Value} (hv : 0 ≤ v.toInt) (h : moreFlag v = true) : doneFlag v = false := by
  rw [moreFlag_iff] at h
  rw [← Bool.not_eq_true, doneFlag_iff]
  rw [BitVec.toInt_eq_toNat_cond] at hv ⊢
  omega

/-- What `ENCS` writes of a value that is not negative, in terms of what `ENCU` writes of it (R95). -/
theorem exists_encodeUnsigned_encodeSigned (v : Value) (hv : 0 ≤ v.toInt) :
    ∃ pre b, Wire.encodeUnsigned v = pre ++ [b] ∧
      Wire.encodeSigned v = pre ++ if signFlag b then [b ||| 0x80, 0x00] else [b] := by
  induction v using encoder_induction (.encu 0) with
  | last v h =>
    have hmore : moreFlag v = false := by simpa [encoderLast, Instr.op] using h
    have hzero : Wire.encodeSigned 0 = [0x00] := by decide
    refine ⟨[], encuByte v, by rw [encodeUnsigned_eq, hmore]; rfl, ?_⟩
    rw [signFlag_encuByte hmore, encodeSigned_eq, encsByte, encuByte, wireByte_or_cont, hmore]
    cases hdone : doneFlag v with
    | true => rfl
    | false => rw [encsRest_eq_encuRest hv hdone, encuRest_of_not_more hmore, hzero]; rfl
  | more v h ih =>
    have hmore : moreFlag v = true := by simpa [encoderLast, Instr.op] using h
    have hdone := doneFlag_of_more hv hmore
    have hrest := encsRest_eq_encuRest hv hdone
    have hnonneg : 0 ≤ (encuRest v).toInt := by
      rw [← hrest, Wire.encsRest_of_more hdone, asr64_toInt]
      exact Int.ediv_nonneg hv (by decide)
    rw [show encoderRest (.encu 0) v = encuRest v from rfl] at ih
    obtain ⟨pre, b, hu, hs⟩ := ih hnonneg
    refine ⟨encuByte v :: pre, b, ?_, ?_⟩
    · rw [encodeUnsigned_eq, hmore, if_pos rfl, hu]; rfl
    · rw [encodeSigned_eq, hdone, if_neg Bool.false_ne_true, hrest, hs, encsByte, encuByte, hmore, hdone]; rfl

/-- Settles O44: the last byte of the unsigned sequence decides by its bit 6. -/
theorem nonNegativeValuesSignedAndUnsigned : Obligations.NonNegativeValuesSignedAndUnsigned := by
  intro v b hv hb
  obtain ⟨pre, b', hu, hs⟩ := exists_encodeUnsigned_encodeSigned v hv
  obtain rfl : b' = b := by simpa [hu] using hb
  rw [hs, hu, List.dropLast_concat]
  refine ⟨fun h => ?_, fun h => ?_⟩ <;> rw [signFlag, h] <;> rfl

end Sys2Proof.Machine
end

section
/-! PROOF. `DECS` beat by beat (43_signed_decoder.md R100). -/

namespace Sys2Proof.Machine

/-- `DECS` delivers the accumulator with the sign of the last byte carried up from bit `SHIFT + 7` (R100). -/
theorem decodedValue_decs (a : Value) (k : BitVec 7) (b : Byte) :
    decodedValue .decs a k b =
      if k.toNat + 7 < 64 ∧ signFlag b = true then withPayload a k b ||| signMask (k.toNat + 7)
      else withPayload a k b := rfl

/-- Settles O16: the issue step and the four answered ways a beat can go. -/
theorem decsIssueAndBeat : Obligations.DecsIssueAndBeat := by
  intro s hl
  refine ⟨opField_append 0b11#2 0, fun hp => (exec_decoder_idle_iff (.inr rfl) hp).2 ⟨hl, rfl⟩,
    fun c src hp ho hc => ?_⟩
  have hmove {t : State} (hm : DecoderMove .decs s t) : exec .decs s = .next t :=
    (exec_decoder_run_iff (.inr rfl) hp ho).2 ⟨hl, hm⟩
  refine ⟨fun ha => hmove (.ends hc ha), fun k b hk ha => ?_⟩
  have h63 : k.toNat = 63 ↔ k = 63 := by bv_omega
  refine ⟨fun hk63 h0 h7f => ?_, fun a hacc hle => ?_⟩
  · exact hmove (.overflows hc ha hk (h63.2 hk63) ((tailRejected_decs_iff b).2 ⟨h0, h7f⟩))
  rw [← withPayload_eq a k b]
  refine ⟨fun hne hcont => ?_, fun v hlegal hlast hv => ?_⟩
  · exact hmove (.goesOn hc ha hk hacc hle (fun h => absurd (h63.1 h) hne) hcont)
  · have htail (h : k.toNat = 63) : tailRejected (decoderTail .decs) b = false :=
      tailRejected_legal (.inr rfl) ((hlegal (h63.1 h)).imp_right fun h7f => .inr ⟨rfl, h7f⟩)
    obtain rfl : v = decodedValue .decs a k b := hv.trans (decodedValue_decs a k b).symm
    exact hmove (.completes hc ha hk hacc hle htail hlast)

end Sys2Proof.Machine
end

section
/-! PROOF. Where `DECU` and `DECS` agree (43_signed_decoder.md R105). -/

namespace Sys2Proof.Machine

/-- Only the 10th byte is tested, so every shorter sequence is legal for both decoders (R61, R62). -/
theorem legalFor_of_length_le_nine (i : Instr) {bs : List Byte} (hseq : Wire.isSequence bs = true)
    (hlen : bs.length ≤ 9) : legalFor i bs = true := by
  have h10 : bs.length ≠ 10 := by omega
  simp [legalFor, Wire.legalUnsigned, Wire.legalSigned, hseq, h10]

/-- Without a sign in the last byte there is nothing to extend (R57). -/
theorem signedValue_of_no_sign {bs : List Byte} (h : bs.getLast?.any signFlag = false) :
    Wire.signedValue bs = Wire.unsignedValue bs := by
  simp [Wire.signedValue, Wire.unsignedValue, h]

/-- Settles O46: both decoders read the same legal sequence, and its two values are equal. -/
theorem decodersAgreeWithoutASign : Obligations.DecodersAgreeWithoutASign := by
  intro bs s hp hl hseq hlen hsign hy
  obtain ⟨t, ht, -, htst, htval, htcount, htsrc⟩ :=
    perform_decoder_legal (i := .decu) (.inl rfl) hp hl (legalFor_of_length_le_nine _ hseq hlen) hy
  obtain ⟨u, hu, -, hust, huval, hucount, husrc⟩ :=
    perform_decoder_legal (i := .decs) (.inr rfl) hp hl (legalFor_of_length_le_nine _ hseq hlen) hy
  have hvalue : valueFor .decs bs = valueFor .decu bs := signedValue_of_no_sign hsign
  rw [hvalue] at huval
  exact ⟨t, u, ht, hu, ⟨htst.trans hust.symm, htval.trans huval.symm, htcount.trans hucount.symm⟩,
    htsrc.trans husrc.symm, htst, htcount⟩

end Sys2Proof.Machine
end

section
/-! PROOF. The low-bits helper keeps the payload and drops the continuation flag and nothing else
(44_low_bits_helper.md R110, R111). -/

namespace Sys2Proof.Machine

/-- Keeping bits 6:0 is masking with `0x7f`, whatever the width of the word they are taken from. -/
theorem zeroExtend_lowSevenBits {w : Nat} (hw : 7 ≤ w) (x : BitVec w) :
    (x.extractLsb' 0 7).zeroExtend w = x &&& BitVec.ofNat w 0x7f := by
  have hpow : 2 ^ 7 ≤ 2 ^ w := Nat.pow_le_pow_right (by decide) hw
  have hmask : 0x7f % 2 ^ w = 2 ^ 7 - 1 := Nat.mod_eq_of_lt (by omega)
  have hfits : x.toNat % 2 ^ 7 < 2 ^ w := (Nat.mod_lt _ (by decide)).trans_le hpow
  apply BitVec.eq_of_toNat_eq
  rw [BitVec.zeroExtend, BitVec.toNat_setWidth, BitVec.extractLsb'_toNat, Nat.shiftRight_zero, Nat.mod_eq_of_lt hfits,
    BitVec.toNat_and, BitVec.toNat_ofNat, hmask, Nat.and_two_pow_sub_one_eq_mod]

/-- A byte is its continuation flag above its payload (R110). -/
theorem wireByte_contFlag_low7 (b : Byte) : wireByte (contFlag b) (low7 b) = b := by
  ext j hj
  rw [wireByte, BitVec.getElem_append]
  split
  case isTrue => simp [low7, BitVec.getLsbD_eq_getElem hj]
  case isFalse hge =>
    obtain rfl : j = 7 := by omega
    simp [contFlag, BitVec.getLsbD_eq_getElem]

/-- The helper reads a value through its low byte (R111). -/
theorem low7Value_eq_low7 (v : Value) : low7Value v = low7 (v.setWidth 8) := by
  apply BitVec.eq_of_toNat_eq
  rw [low7Value_toNat, low7, BitVec.extractLsb'_toNat, BitVec.toNat_setWidth, Nat.shiftRight_zero,
    Nat.mod_mod_of_dvd _ (by decide)]

/-- Masking to the low byte first takes nothing from the payload (R111). -/
theorem and_ff_and_7f (v : Value) : (v &&& 0xff) &&& 0x7f = v &&& 0x7f := by
  have hmask : (0xff &&& 0x7f : Value) = 0x7f := by decide
  rw [BitVec.and_assoc, hmask]

/-- Settles O51: `low7` of a byte and of a value is one mask of bits 6:0. -/
theorem lowSevenKeepsThePayload : Obligations.LowSevenKeepsThePayload :=
  ⟨fun b => ⟨zeroExtend_lowSevenBits (by decide) b, (wireByte_contFlag_low7 b).symm⟩,
    fun v => ⟨low7Value_eq_low7 v, (zeroExtend_lowSevenBits (by decide) v).trans (and_ff_and_7f v).symm⟩⟩

end Sys2Proof.Machine
end

section
/-! PROOF. Every byte an operation counts it has moved, and it has moved no other (60_exceptions.md R126). -/

namespace Sys2Proof.Machine

/-- From `s` to `t` operation `i` has moved the bytes `bs` through its own channel, and nothing through the other. -/
def Moved (i : Instr) (bs : List Byte) (s t : State) : Prop :=
  match i with
  | .encu _ | .encs _ => t.source = s.source ∧ t.sink.data = s.sink.data ++ bs
  | .decu | .decs => t.sink = s.sink ∧ s.source.unread = bs ++ t.source.unread

theorem moved_encoder_iff {i : Instr} {v : Value} {bs : List Byte} {s t : State} (hi : i = .encu v ∨ i = .encs v) :
    Moved i bs s t ↔ t.source = s.source ∧ t.sink.data = s.sink.data ++ bs := by
  obtain rfl | rfl := hi <;> rfl

theorem moved_decoder_iff {i : Instr} {bs : List Byte} {s t : State} (hi : i = .decu ∨ i = .decs) :
    Moved i bs s t ↔ t.sink = s.sink ∧ s.source.unread = bs ++ t.source.unread := by
  obtain rfl | rfl := hi <;> rfl

theorem moved_nil {i : Instr} {s t : State} (hsrc : t.source = s.source) (hsnk : t.sink = s.sink) : Moved i [] s t := by
  obtain ⟨v, hi⟩ | hi := encoder_or_decoder i
  · exact (moved_encoder_iff hi).2 ⟨hsrc, by simp [hsnk]⟩
  · exact (moved_decoder_iff hi).2 ⟨hsnk, by simp [hsrc]⟩

theorem Moved.trans {i : Instr} {as bs : List Byte} {s t u : State} (hst : Moved i as s t) (htu : Moved i bs t u) :
    Moved i (as ++ bs) s u := by
  obtain ⟨v, hi⟩ | hi := encoder_or_decoder i
  · obtain ⟨hsrc, hdata⟩ := (moved_encoder_iff hi).1 hst
    obtain ⟨hsrc', hdata'⟩ := (moved_encoder_iff hi).1 htu
    exact (moved_encoder_iff hi).2 ⟨hsrc'.trans hsrc, by rw [hdata', hdata, List.append_assoc]⟩
  · obtain ⟨hsnk, hunread⟩ := (moved_decoder_iff hi).1 hst
    obtain ⟨hsnk', hunread'⟩ := (moved_decoder_iff hi).1 htu
    exact (moved_decoder_iff hi).2 ⟨hsnk'.trans hsnk, by rw [hunread, hunread', List.append_assoc]⟩

/-- From `s` to `t` operation `i` has counted in `CNT` exactly the bytes it has moved. -/
def Counted (i : Instr) (s t : State) : Prop :=
  ∃ (c c' : BitVec 4) (bs : List Byte), s.cnt = .holds c ∧ t.cnt = .holds c' ∧ c'.toNat = c.toNat + bs.length ∧
    Moved i bs s t

theorem Counted.trans {i : Instr} {s t u : State} (hst : Counted i s t) (htu : Counted i t u) : Counted i s u := by
  obtain ⟨c, c', as, hc, hc', hlen, hmoved⟩ := hst
  obtain ⟨d, d', bs, hd, hd', hlen', hmoved'⟩ := htu
  obtain rfl := Reg.holds_unique hc' hd
  exact ⟨c, d', as ++ bs, hc, hd', by rw [List.length_append]; omega, hmoved.trans hmoved'⟩

theorem EncoderMove.cnt_of_ack {i : Instr} {s t : State} {r : Value} {c : BitVec 4} (h : EncoderMove i s t)
    (hr : s.rem = .holds r) (hc : s.cnt = .holds c)
    (hack : (s.sink.answer (encoderByte i r)).map Prod.fst = some .ack) : t.cnt = .holds (c + 1) := by
  cases h with
  | waits hr' ha =>
    obtain rfl := Reg.holds_unique hr hr'
    simp [ha] at hack
  | refused hr' _ ha =>
    obtain rfl := Reg.holds_unique hr hr'
    simp [ha] at hack
  | goesOn _ hc' => simp [Reg.holds_unique hc hc']
  | completes _ hc' => simp [Reg.holds_unique hc hc']

theorem DecoderMove.cnt_of_byte {i : Instr} {s t : State} {c : BitVec 4} {b : Byte} {src : Source}
    (h : DecoderMove i s t) (hc : s.cnt = .holds c) (hbyte : s.source.answer = some (.byte b, src)) :
    t.cnt = .holds (c + 1) := by
  cases h with
  | waits ha => simp [ha] at hbyte
  | ends _ ha => simp [ha] at hbyte
  | overflows hc' => simp [Reg.holds_unique hc hc']
  | goesOn hc' => simp [Reg.holds_unique hc hc']
  | completes hc' => simp [Reg.holds_unique hc hc']

/-- A beat of an encoder counts the byte its sink accepts, or nothing moves. -/
theorem EncoderMove.counted {i : Instr} {v : Value} {s t : State} (hi : i = .encu v ∨ i = .encs v)
    (h : EncoderMove i s t) (hw : s.registersLegal i = true) : Counted i s t := by
  obtain ⟨r, c, hr, hc, hle, -⟩ := (encoderLegal_iff hi).1 hw
  obtain ⟨-, -, hsrc, -⟩ := h.frame
  obtain ⟨hack, hdata⟩ | ⟨-, hdata, -, hcnt⟩ := h.bytes hr
  · exact ⟨c, c + 1, [_], hc, h.cnt_of_ack hr hc hack, cnt_succ_toNat hle, (moved_encoder_iff hi).2 ⟨hsrc, hdata⟩⟩
  · exact ⟨c, c, [], hc, hcnt.trans hc, rfl, (moved_encoder_iff hi).2 ⟨hsrc, by simp [hdata]⟩⟩

/-- A beat of a decoder counts the byte its source yields, a rejected one included, or nothing moves. -/
theorem DecoderMove.counted {i : Instr} {s t : State} (hi : i = .decu ∨ i = .decs)
    (h : DecoderMove i s t) (hw : s.registersLegal i = true) : Counted i s t := by
  obtain ⟨a, k, c, -, -, hc, hle, -⟩ := (decoderLegal_iff hi).1 hw
  obtain ⟨-, hsnk, -⟩ := h.frame
  obtain ⟨b, ha, hunread⟩ | ⟨-, hunread, -, -, hcnt⟩ := h.bytes
  · exact ⟨c, c + 1, [b], hc, h.cnt_of_byte hc ha, cnt_succ_toNat hle, (moved_decoder_iff hi).2 ⟨hsnk, hunread⟩⟩
  · exact ⟨c, c, [], hc, hcnt.trans hc, rfl, (moved_decoder_iff hi).2 ⟨hsnk, by simp [hunread]⟩⟩

theorem exec_counted {i : Instr} {s t : State} (hp : s.phase = .run) (ho : s.opsel = .holds i.op)
    (hw : s.workLegal = true) (h : exec i s = .next t) : Counted i s t := by
  rw [workLegal_run hp ho] at hw
  obtain ⟨v, hi⟩ | hi := encoder_or_decoder i
  · obtain ⟨-, hm⟩ := (exec_encoder_run_iff hi hp ho).1 h
    exact hm.counted hi hw
  · obtain ⟨-, hm⟩ := (exec_decoder_run_iff hi hp ho).1 h
    exact hm.counted hi hw

/-- The beats of an operation that ends count what they move, and the last one reports that count. -/
theorem beats_counted {i : Instr} {n : Nat} {s t : State} (hp : s.phase = .run) (ho : s.opsel = .holds i.op)
    (hw : s.workLegal = true) (h : beats i n s = .next t) (ht : t.phase = .idle) :
    Counted i s t ∧ t.count = t.cnt := by
  refine beats_end (P := fun s => s.opsel = .holds i.op → s.workLegal = true → Counted i s t ∧ t.count = t.cnt) ht
    ?_ ?_ n s hp h ho hw
  · intro s hp he ho hw
    obtain ⟨st, n, -, hcount, hcnt, -⟩ := (exec_response hw he).2 hp ht
    exact ⟨exec_counted hp ho hw he, hcount.trans hcnt.symm⟩
  · intro s s' hp _ he ih ho hw
    obtain ⟨hrest, hcount⟩ := ih (exec_keeps_opsel (fun _ => ho) he) (exec_keeps_workLegal hw he)
    exact ⟨(exec_counted hp ho hw he).trans hrest, hcount⟩

/-- An issue step puts the core into `RUN` with nothing counted and nothing moved. -/
theorem exec_issue {i : Instr} {s t : State} (hp : s.phase = .idle) (h : exec i s = .next t) :
    t.phase = .run ∧ t.cnt = .holds 0 ∧ Moved i [] s t := by
  obtain ⟨v, hi⟩ | hi := encoder_or_decoder i
  · obtain ⟨-, rfl⟩ := (exec_encoder_idle_iff hi hp).1 h
    exact ⟨rfl, rfl, moved_nil rfl rfl⟩
  · obtain ⟨-, rfl⟩ := (exec_decoder_idle_iff hi hp).1 h
    exact ⟨rfl, rfl, moved_nil rfl rfl⟩

theorem perform_counted {i : Instr} {s t : State} (hp : s.phase = .idle) (h : perform i s = .next t)
    (ht : t.phase = .idle) :
    ∃ (n : BitVec 4) (bs : List Byte), t.count = .holds n ∧ bs.length = n.toNat ∧ Moved i bs s t := by
  obtain ⟨s', he, hb⟩ := perform_iff.1 h
  obtain ⟨hrun, hzero, hissue⟩ := exec_issue hp he
  obtain ⟨⟨c, n, bs, hc, hn, hlen, hmoved⟩, hcount⟩ :=
    beats_counted hrun (exec_keeps_opsel (by simp [hp]) he) (exec_keeps_workLegal (workLegal_idle hp) he) hb ht
  obtain rfl := Reg.holds_unique hzero hc
  exact ⟨n, bs, hcount.trans hn, by simpa using hlen.symm, hissue.trans hmoved⟩

/-- Settles O26: `CNT` counts the bytes moved at every beat, from 0 at the issue step to `COUNT` at the end. -/
theorem countIsTheBytesMoved : Obligations.CountIsTheBytesMoved := by
  intro i v s t hp h ht
  obtain ⟨n, bs, hn, hlen, hmoved⟩ := perform_counted hp h ht
  refine ⟨n, hn, fun hi => ?_, fun hi => ?_⟩
  · obtain ⟨hsrc, hdata⟩ := (moved_encoder_iff hi).1 hmoved
    exact ⟨hsrc, bs, hlen, hdata⟩
  · obtain ⟨hsnk, hunread⟩ := (moved_decoder_iff hi).1 hmoved
    exact ⟨hsnk, bs, hlen, hunread⟩

end Sys2Proof.Machine
end

section
/-! PROOF. How an operation ends: which codes its last beat reports, and what an error leaves unchanged (60_exceptions.md
R120, R125). -/

namespace Sys2Proof.Machine

/-- The beat that ends an encoder reports `WRITE_ERROR` and keeps what a refused offer leaves, or reports `OK`. -/
theorem EncoderMove.ending {i : Instr} {s t : State} (h : EncoderMove i s t) (hp : s.phase = .run)
    (ht : t.phase = .idle) :
    t.status = .holds Status.ok.code ∨
      ∃ c snk, s.cnt = .holds c ∧ snk.data = s.sink.data ∧ snk.link = s.sink.link ∧
        t = { s with sink := snk }.raise .writeError c := by
  cases h with
  | waits => simp [hp] at ht
  | refused _ hc ha => exact .inr ⟨_, _, hc, by simpa using Sink.answer_data ha, (Sink.answer_keeps ha).1, rfl⟩
  | goesOn => simp [hp] at ht
  | completes => exact .inl rfl

/-- The beat that ends a decoder reports `OK`, or `END_OF_INPUT` with no byte taken, or `OVERFLOW` with one byte taken. -/
theorem DecoderMove.ending {i : Instr} {s t : State} (h : DecoderMove i s t) (hp : s.phase = .run)
    (ht : t.phase = .idle) :
    t.status = .holds Status.ok.code ∨
      ∃ c src, s.cnt = .holds c ∧ src.link = s.source.link ∧
        ((src.unread = s.source.unread ∧ t = { s with source := src }.raise .endOfInput c) ∨
         ((∃ b, s.source.unread = b :: src.unread) ∧
           t = ({ s with source := src }.byteRead c).overflow (c + 1))) := by
  cases h with
  | waits => simp [hp] at ht
  | ends hc ha =>
    exact .inr ⟨_, _, hc, (Source.answer_keeps ha).1, .inl ⟨by simpa using Source.answer_unread ha, rfl⟩⟩
  | overflows hc ha =>
    exact .inr ⟨_, _, hc, (Source.answer_keeps ha).1, .inr ⟨⟨_, by simpa using Source.answer_unread ha⟩, rfl⟩⟩
  | goesOn => simp [hp] at ht
  | completes => exact .inl rfl

theorem exec_encoder_ending {i : Instr} {v : Value} {s t : State} (hi : i = .encu v ∨ i = .encs v)
    (hp : s.phase = .run) (h : exec i s = .next t) (ht : t.phase = .idle) : EncoderMove i s t := by
  obtain ⟨hidle, -⟩ | ⟨-, -, hm⟩ | ⟨-, -, rfl⟩ := exec_encoder_next hi h
  · simp [hp] at hidle
  · exact hm
  · simp [hp] at ht

theorem exec_decoder_ending {i : Instr} {s t : State} (hi : i = .decu ∨ i = .decs)
    (hp : s.phase = .run) (h : exec i s = .next t) (ht : t.phase = .idle) : DecoderMove i s t := by
  obtain ⟨hidle, -⟩ | ⟨-, -, hm⟩ | ⟨-, -, rfl⟩ := exec_decoder_next hi h
  · simp [hp] at hidle
  · exact hm
  · simp [hp] at ht

/-- Settles O24: by the ends of an encoder and of a decoder. -/
theorem statusCodesAndWhoRaisesThem : Obligations.StatusCodesAndWhoRaisesThem := by
  refine ⟨⟨rfl, rfl, rfl, rfl⟩, fun i v s t hp h ht => ⟨fun hi => ?_, fun hi => ?_⟩⟩
  · obtain hok | ⟨c, snk, -, -, -, rfl⟩ := (exec_encoder_ending hi hp h ht).ending hp ht
    · exact .inl hok
    · exact .inr rfl
  · obtain hok | ⟨c, src, -, -, ⟨-, rfl⟩ | ⟨-, rfl⟩⟩ := (exec_decoder_ending hi hp h ht).ending hp ht
    · exact .inl hok
    · exact .inr (.inl rfl)
    · exact .inr (.inr rfl)

/-- Settles O25: the three errors one by one. -/
theorem raisingAnError : Obligations.RaisingAnError := by
  intro i s t hp h ht hne
  obtain ⟨v, hi⟩ | hi := encoder_or_decoder i
  · obtain hok | ⟨c, snk, hc, hdata, hlink, rfl⟩ := (exec_encoder_ending hi hp h ht).ending hp ht
    · exact absurd hok hne
    · simp [Status.code, hc, hdata, hlink]
  · obtain hok | ⟨c, src, hc, hlink, ⟨hunread, rfl⟩ | ⟨⟨b, hunread⟩, rfl⟩⟩ :=
      (exec_decoder_ending hi hp h ht).ending hp ht
    · exact absurd hok hne
    · simp [Status.code, hc, hlink, hunread]
    · simp [Status.code, hc, hlink, hunread]

end Sys2Proof.Machine
end

section
/-! PROOF. How many requests an operation has made of its channel when it ends, and so how many beats it has taken
(60_exceptions.md R125; 70_reset_and_hazards.md R151). -/

namespace Sys2Proof.Machine

/-- The requests of an operation that ends with outcome `e` and `COUNT` `n`: one for each byte counted, and the one that
was answered with `END` or `NAK`. -/
def Status.requests (e : Status) (n : BitVec 4) : BitVec 4 :=
  match e with
  | .ok | .overflow => n
  | .endOfInput | .writeError => n + 1

/-- The response in `t` tells of an operation that has made `k` requests, its `COUNT` being `CNT`. -/
def EndedAfter (k : Nat) (t : State) : Prop :=
  ∃ (e : Status) (n : BitVec 4), t.status = .holds e.code ∧ t.count = .holds n ∧ t.cnt = .holds n ∧
    (e.requests n).toNat = k

/-- From `s` to `t` the running operation has had one request answered: it runs on with one byte more counted, or it has
ended. -/
def Requested (s t : State) : Prop :=
  ∃ c : BitVec 4, s.cnt = .holds c ∧
    (t.phase = .run ∧ t.cnt = .holds (c + 1) ∨ t.phase = .idle ∧ EndedAfter (c + 1).toNat t)

theorem EncoderMove.requested {i : Instr} {s t : State} (h : EncoderMove i s t) (hp : s.phase = .run) :
    (∃ b, s.sink.answer b = none) ∧ t = s ∨ (∃ b a, s.sink.answer b = some (a, t.sink)) ∧ Requested s t := by
  cases h with
  | waits _ ha => exact .inl ⟨⟨_, ha⟩, rfl⟩
  | refused _ hc ha => exact .inr ⟨⟨_, _, ha⟩, _, hc, .inr ⟨rfl, .writeError, _, rfl, rfl, hc, rfl⟩⟩
  | goesOn _ hc ha => exact .inr ⟨⟨_, _, ha⟩, _, hc, .inl ⟨hp, rfl⟩⟩
  | completes _ hc ha => exact .inr ⟨⟨_, _, ha⟩, _, hc, .inr ⟨rfl, .ok, _, rfl, rfl, rfl, rfl⟩⟩

theorem DecoderMove.requested {i : Instr} {s t : State} (h : DecoderMove i s t) (hp : s.phase = .run) :
    s.source.answer = none ∧ t = s ∨ (∃ a, s.source.answer = some (a, t.source)) ∧ Requested s t := by
  cases h with
  | waits ha => exact .inl ⟨ha, rfl⟩
  | ends hc ha => exact .inr ⟨⟨_, ha⟩, _, hc, .inr ⟨rfl, .endOfInput, _, rfl, rfl, hc, rfl⟩⟩
  | overflows hc ha => exact .inr ⟨⟨_, ha⟩, _, hc, .inr ⟨rfl, .overflow, _, rfl, rfl, rfl, rfl⟩⟩
  | goesOn hc ha => exact .inr ⟨⟨_, ha⟩, _, hc, .inl ⟨hp, rfl⟩⟩
  | completes hc ha => exact .inr ⟨⟨_, ha⟩, _, hc, .inr ⟨rfl, .ok, _, rfl, rfl, rfl, rfl⟩⟩

/-- A move in `RUN` changes nothing or has one request answered. -/
theorem exec_requested {i : Instr} {s t : State} (hp : s.phase = .run) (h : exec i s = .next t) :
    t = s ∨ Requested s t := by
  obtain ⟨v, hi⟩ | hi := encoder_or_decoder i
  · obtain ⟨hidle, -⟩ | ⟨-, -, hm⟩ | ⟨-, -, rfl⟩ := exec_encoder_next hi h
    · simp [hp] at hidle
    · exact (hm.requested hp).imp And.right And.right
    · exact .inl rfl
  · obtain ⟨hidle, -⟩ | ⟨-, -, hm⟩ | ⟨-, -, rfl⟩ := exec_decoder_next hi h
    · simp [hp] at hidle
    · exact (hm.requested hp).imp And.right And.right
    · exact .inl rfl

theorem exists_cnt_of_workLegal {i : Instr} {s : State} (hp : s.phase = .run) (ho : s.opsel = .holds i.op)
    (hw : s.workLegal = true) : ∃ c : BitVec 4, s.cnt = .holds c ∧ c.toNat ≤ 9 := by
  rw [workLegal_run hp ho] at hw
  obtain ⟨v, hi⟩ | hi := encoder_or_decoder i
  · obtain ⟨r, c, -, hc, hle, -⟩ := (encoderLegal_iff hi).1 hw
    exact ⟨c, hc, hle⟩
  · obtain ⟨a, k, c, -, -, hc, hle, -⟩ := (decoderLegal_iff hi).1 hw
    exact ⟨c, hc, hle⟩

theorem beatsTaken_idle {s : State} (i : Instr) (n : Nat) (h : s.phase = .idle) : beatsTaken i n s = 0 := by
  cases n <;> simp [beatsTaken, h]

theorem beatsTaken_succ {i : Instr} {s s' : State} (n : Nat) (hp : s.phase = .run) (h : exec i s = .next s') :
    beatsTaken i (n + 1) s = beatsTaken i n s' + 1 := by
  simp only [beatsTaken, hp, h]

/-- A beat that changes nothing is followed by beats that change nothing: such an operation does not end. -/
theorem beats_of_wait {i : Instr} {s : State} (n : Nat) (hp : s.phase = .run) (h : exec i s = .next s) :
    beats i n s = .next s := by
  induction n with
  | zero => rfl
  | succ n ih => exact (beats_succ_iff hp).2 ⟨s, h, ih⟩

/-- Each beat of an operation that ends has one request answered. -/
theorem beats_endedAfter {i : Instr} {n : Nat} {s t : State} {c : BitVec 4} (hp : s.phase = .run)
    (ho : s.opsel = .holds i.op) (hw : s.workLegal = true) (hc : s.cnt = .holds c) (h : beats i n s = .next t)
    (ht : t.phase = .idle) : EndedAfter (c.toNat + beatsTaken i n s) t := by
  induction n generalizing s c with
  | zero =>
    cases h
    simp [hp] at ht
  | succ n ih =>
    obtain ⟨s', he, hb⟩ := (beats_succ_iff hp).1 h
    obtain rfl | ⟨c', hc', hreq⟩ := exec_requested hp he
    · cases (beats_of_wait n hp he).symm.trans hb
      simp [hp] at ht
    · obtain ⟨d, hd, hle⟩ := exists_cnt_of_workLegal hp ho hw
      obtain rfl := Reg.holds_unique hc hd
      obtain rfl := Reg.holds_unique hc hc'
      have hsucc := cnt_succ_toNat hle
      rw [beatsTaken_succ n hp he]
      obtain ⟨hrun, hcnt⟩ | ⟨hidle, hend⟩ := hreq
      · have hrest := ih hrun (exec_keeps_opsel (fun _ => ho) he) (exec_keeps_workLegal hw he) hcnt hb
        rwa [hsucc, Nat.add_right_comm] at hrest
      · cases (beats_idle i n hidle).symm.trans hb
        rwa [beatsTaken_idle i n hidle, zero_add, ← hsucc]

/-- An operation that ends reports a row of the table of R17. -/
theorem beats_reportsRow {i : Instr} {n : Nat} {s t : State} (hp : s.phase = .run) (ho : s.opsel = .holds i.op)
    (hw : s.workLegal = true) (h : beats i n s = .next t) (ht : t.phase = .idle) : ReportsRow i t := by
  refine beats_end (P := fun s => s.opsel = .holds i.op → s.workLegal = true → ReportsRow i t) ht ?_ ?_ n s hp h ho hw
  · intro s hp he _ hw
    exact (exec_response hw he).2 hp ht
  · intro s s' _ _ he ih ho hw
    exact ih (exec_keeps_opsel (fun _ => ho) he) (exec_keeps_workLegal hw he)

/-- The rows of the table of R17 as bounds of `COUNT`. -/
theorem count_of_responseRow {i : Instr} {e : Status} {x : Reg 64} {n : BitVec 4} (h : responseRow i e x n = true) :
    (e = .ok → 1 ≤ n.toNat ∧ n.toNat ≤ 10) ∧ (e = .writeError ∨ e = .endOfInput → n.toNat ≤ 9) ∧
      (e = .overflow → n.toNat = 10) := by
  obtain ⟨v, hi⟩ | hi := encoder_or_decoder i
  · rw [responseRow_encoder hi] at h
    cases e <;> simp_all [responseRow]
  · rw [responseRow_decoder hi] at h
    cases e <;> simp_all [responseRow]

/-- The requests that each outcome of the table of R17 tells of. -/
theorem requests_of_responseRow {i : Instr} {e : Status} {x : Reg 64} {n : BitVec 4} (h : responseRow i e x n = true) :
    1 ≤ (e.requests n).toNat ∧ (e.requests n).toNat ≤ 10 ∧ (e = .ok → (e.requests n).toNat = n.toNat) ∧
      (e = .writeError ∨ e = .endOfInput → (e.requests n).toNat = n.toNat + 1) ∧
      (e = .overflow → (e.requests n).toNat = 10) := by
  obtain ⟨hok, herr, hovf⟩ := count_of_responseRow h
  cases e with
  | ok => simpa [Status.requests] using hok rfl
  | overflow => simp [Status.requests, hovf rfl]
  | endOfInput =>
    have hle := herr (.inr rfl)
    simp only [Status.requests, cnt_succ_toNat hle]
    simpa using Nat.lt_succ_of_le hle
  | writeError =>
    have hle := herr (.inl rfl)
    simp only [Status.requests, cnt_succ_toNat hle]
    simpa using Nat.lt_succ_of_le hle

end Sys2Proof.Machine
end

section
/-! PROOF. An operation whose own channel answers ends within ten beats (20_memory.md R47; 70_reset_and_hazards.md R151). -/

namespace Sys2Proof.Machine

theorem Source.exists_answer {src : Source} {n : Nat} (h : src.answersNext (n + 1) = true) :
    ∃ a src', src.answer = some (a, src') ∧ src'.answersNext n = true := by
  obtain ⟨link, ⟨bytes, pos⟩ | ⟨_ | ⟨a, answers⟩⟩⟩ := src
  · simp only [Source.answer]
    split
    · exact ⟨_, _, rfl, rfl⟩
    · exact ⟨_, _, rfl, rfl⟩
  · simp [Source.answersNext] at h
  · exact ⟨_, _, rfl, by simpa [Source.answersNext] using h⟩

theorem Sink.exists_answer {snk : Sink} {n : Nat} (b : Byte) (h : snk.answersNext (n + 1) = true) :
    ∃ a snk', snk.answer b = some (a, snk') ∧ snk'.answersNext n = true := by
  obtain ⟨link, ⟨_ | cap⟩ | ⟨_ | ⟨_ | _, answers⟩⟩, data⟩ := snk
  · exact ⟨_, _, rfl, rfl⟩
  · simp only [Sink.answer]
    split
    · exact ⟨_, _, rfl, rfl⟩
    · exact ⟨_, _, rfl, rfl⟩
  · simp [Sink.answersNext] at h
  · exact ⟨_, _, rfl, by simpa [Sink.answersNext] using h⟩
  · exact ⟨_, _, rfl, by simpa [Sink.answersNext] using h⟩

/-- The channel that operation `i` uses is this core's alone and answers its next `n` requests. -/
def OwnChannelAnswers (i : Instr) (n : Nat) (s : State) : Prop :=
  match i with
  | .encu _ | .encs _ => s.sink.link = .exclusive ∧ s.sink.answersNext n = true
  | .decu | .decs => s.source.link = .exclusive ∧ s.source.answersNext n = true

theorem ownChannelAnswers_encoder_iff {i : Instr} {v : Value} {n : Nat} {s : State} (hi : i = .encu v ∨ i = .encs v) :
    OwnChannelAnswers i n s ↔ s.sink.link = .exclusive ∧ s.sink.answersNext n = true := by
  obtain rfl | rfl := hi <;> rfl

theorem ownChannelAnswers_decoder_iff {i : Instr} {n : Nat} {s : State} (hi : i = .decu ∨ i = .decs) :
    OwnChannelAnswers i n s ↔ s.source.link = .exclusive ∧ s.source.answersNext n = true := by
  obtain rfl | rfl := hi <;> rfl

/-- A command whose operation has a channel of its own is accepted, and the channel is not used yet. -/
theorem exists_issue {i : Instr} {n : Nat} {s : State} (hp : s.phase = .idle) (ha : OwnChannelAnswers i n s) :
    ∃ t, exec i s = .next t ∧ OwnChannelAnswers i n t := by
  obtain ⟨v, hi⟩ | hi := encoder_or_decoder i
  · have ⟨hl, hans⟩ := (ownChannelAnswers_encoder_iff hi).1 ha
    exact ⟨_, (exec_encoder_idle_iff hi hp).2 ⟨hl, rfl⟩, (ownChannelAnswers_encoder_iff hi).2 ⟨hl, hans⟩⟩
  · have ⟨hl, hans⟩ := (ownChannelAnswers_decoder_iff hi).1 ha
    exact ⟨_, (exec_decoder_idle_iff hi hp).2 ⟨hl, rfl⟩, (ownChannelAnswers_decoder_iff hi).2 ⟨hl, hans⟩⟩

/-- A beat whose request is answered. -/
theorem exists_requested {i : Instr} {n : Nat} {s : State} (hp : s.phase = .run) (ho : s.opsel = .holds i.op)
    (hw : s.workLegal = true) (ha : OwnChannelAnswers i (n + 1) s) :
    ∃ t, exec i s = .next t ∧ Requested s t ∧ OwnChannelAnswers i n t := by
  rw [workLegal_run hp ho] at hw
  obtain ⟨v, hi⟩ | hi := encoder_or_decoder i
  · obtain ⟨hl, hans⟩ := (ownChannelAnswers_encoder_iff hi).1 ha
    obtain ⟨r, c, hr, hc, -⟩ := (encoderLegal_iff hi).1 hw
    obtain ⟨t, hm⟩ := exists_encoderMove i hr hc
    refine ⟨t, (exec_encoder_run_iff hi hp ho).2 ⟨hl, hm⟩, ?_⟩
    obtain ⟨⟨b, hnone⟩, -⟩ | ⟨⟨b, a, hb⟩, hreq⟩ := hm.requested hp <;>
      obtain ⟨a', snk, hsome, hans'⟩ := Sink.exists_answer b hans
    · simp [hnone] at hsome
    · obtain ⟨-, rfl⟩ : a = a' ∧ t.sink = snk := by simpa [hb] using hsome
      exact ⟨hreq, (ownChannelAnswers_encoder_iff hi).2 ⟨hm.sink_link.trans hl, hans'⟩⟩
  · obtain ⟨hl, hans⟩ := (ownChannelAnswers_decoder_iff hi).1 ha
    obtain ⟨a, k, c, hacc, hk, hc, hle, hshift, -⟩ := (decoderLegal_iff hi).1 hw
    obtain ⟨t, hm⟩ := exists_decoderMove i hacc hk hc (by omega)
    refine ⟨t, (exec_decoder_run_iff hi hp ho).2 ⟨hl, hm⟩, ?_⟩
    obtain ⟨a', src, hsome, hans'⟩ := Source.exists_answer hans
    obtain ⟨hnone, -⟩ | ⟨⟨a, hb⟩, hreq⟩ := hm.requested hp
    · simp [hnone] at hsome
    · obtain ⟨-, rfl⟩ : a = a' ∧ t.source = src := by simpa [hb] using hsome
      exact ⟨hreq, (ownChannelAnswers_decoder_iff hi).2 ⟨hm.source_link.trans hl, hans'⟩⟩

/-- A running operation ends with the beats left of ten, if its channel answers them: `CNT` is at most 9 while it runs. -/
theorem exists_beats_idle {i : Instr} {n : Nat} {s : State} {c : BitVec 4} (hp : s.phase = .run)
    (ho : s.opsel = .holds i.op) (hw : s.workLegal = true) (hc : s.cnt = .holds c) (hn : c.toNat + n = 10)
    (ha : OwnChannelAnswers i n s) : ∃ t, beats i n s = .next t ∧ t.phase = .idle := by
  induction n generalizing s c with
  | zero =>
    obtain ⟨d, hd, hle⟩ := exists_cnt_of_workLegal hp ho hw
    obtain rfl := Reg.holds_unique hc hd
    omega
  | succ n ih =>
    obtain ⟨s', he, ⟨c', hc', hreq⟩, ha'⟩ := exists_requested hp ho hw ha
    obtain rfl := Reg.holds_unique hc hc'
    obtain ⟨hrun, hcnt⟩ | ⟨hidle, -⟩ := hreq
    · have hsucc := cnt_succ_toNat (c := c) (by omega)
      obtain ⟨t, hb, ht⟩ := ih hrun (exec_keeps_opsel (fun _ => ho) he) (exec_keeps_workLegal hw he) hcnt (by omega) ha'
      exact ⟨t, (beats_succ_iff hp).2 ⟨s', he, hb⟩, ht⟩
    · exact ⟨s', (beats_succ_iff hp).2 ⟨s', he, beats_idle i n hidle⟩, hidle⟩

/-- Settles O37: every beat of an operation that ends has one request answered, and `COUNT` tells how many there were. -/
theorem beatsOfAnOperation : Obligations.BeatsOfAnOperation := by
  refine ⟨fun i s t hp h ht => ?_, fun i v s hp hown => ?_⟩
  · obtain ⟨issued, he, hb⟩ := perform_iff.1 h
    obtain ⟨hrun, hzero, -⟩ := exec_issue hp he
    have ho := exec_keeps_opsel (by simp [hp]) he
    have hw := exec_keeps_workLegal (workLegal_idle hp) he
    obtain ⟨e, n, hst, hn, -, hk⟩ := beats_endedAfter hrun ho hw hzero hb ht
    obtain ⟨st, m, hst', hm, -, hrow⟩ := beats_reportsRow hrun ho hw hb ht
    obtain rfl := Reg.holds_unique hst hst'
    obtain rfl := Reg.holds_unique hn hm
    rw [ofCode_code] at hrow
    have htaken : beatsTaken i 10 issued = (e.requests n).toNat := by simpa using hk.symm
    refine ⟨issued, e.code, n, he, hst, hn, ?_⟩
    rw [ofCode_code, htaken]
    exact requests_of_responseRow hrow
  · have ha : OwnChannelAnswers i 10 s := by
      obtain ⟨hi, hans⟩ | ⟨hi, hans⟩ := hown
      · exact (ownChannelAnswers_encoder_iff hi).2 hans
      · exact (ownChannelAnswers_decoder_iff hi).2 hans
    obtain ⟨issued, he, ha'⟩ := exists_issue hp ha
    obtain ⟨hrun, hzero, -⟩ := exec_issue hp he
    obtain ⟨t, hb, ht⟩ := exists_beats_idle hrun (exec_keeps_opsel (by simp [hp]) he)
      (exec_keeps_workLegal (workLegal_idle hp) he) hzero rfl ha'
    exact ⟨t, perform_iff.2 ⟨issued, he, hb⟩, ht⟩

end Sys2Proof.Machine
end

section
/-! PROOF. What a step that is no reset does to a running operation and to a response that stands (10_state.md R17;
70_reset_and_hazards.md R152, R153; 93_implementation_defined.md U15). -/

namespace Sys2Proof.Machine

theorem ne_reset_of_nextIsReset {s : State} {m : Input} {rest : List Input} (h : s.nextIsReset = false)
    (hin : s.inputs = m :: rest) : m ≠ .reset := by
  rintro rfl
  simp [State.nextIsReset, hin] at h

theorem takeInput_command_run {s : State} (w : CommandWord) (hp : s.phase = .run) :
    takeInput (.command w) s = advance s := by
  simp only [takeInput, offer, hp]

/-- A move on behalf of an operation that `OPSEL` does not select is none. -/
theorem exec_not_selected {i : Instr} {s : State} {op : BitVec 2} (hp : s.phase = .run) (ho : s.opsel = .holds op)
    (hne : op ≠ i.op) : exec i s = .next s := by
  obtain ⟨v, hi⟩ | hi := encoder_or_decoder i
  · simp [exec_encoder hi, operate, hp, ho, hne]
  · simp [exec_decoder hi, operate, hp, ho, hne]

/-- Of the moves of the outside world only a reset ends an operation; otherwise the core's own advance does. -/
theorem takeInput_ends {m : Input} {s t : State} (hp : s.phase = .run) (ht : t.phase = .idle) (hm : m ≠ .reset)
    (h : takeInput m s = .next t) : advance s = .next t := by
  have stays : t.phase ≠ .run := by simp [ht]
  cases m with
  | wait => exact h
  | awaitIdle => cases h; exact absurd hp stays
  | command w => exact takeInput_command_run w hp ▸ h
  | read r => simp [takeInput, readFault_run r hp] at h
  | reset => exact absurd rfl hm
  | attachSource src => cases h; exact absurd hp stays
  | attachSink snk => cases h; exact absurd hp stays
  | presentSink => cases h; exact absurd hp stays

/-- The core's own advance ends an operation with a response. -/
theorem advance_ends {s t : State} (hp : s.phase = .run) (ht : t.phase = .idle) (h : advance s = .next t) :
    ∃ k, EndedAfter k t := by
  obtain ⟨i, -, he⟩ := advance_run_next hp h
  obtain rfl | ⟨c, -, ⟨hrun, -⟩ | ⟨-, hend⟩⟩ := exec_requested hp he
  · simp [hp] at ht
  · simp [hrun] at ht
  · exact ⟨_, hend⟩

/-- Settles O10: a command in `RUN` leaves the core its own advance, and nothing else but a reset ends an operation. -/
theorem busyCommandHasNoEffect : Obligations.BusyCommandHasNoEffect := by
  refine ⟨fun s w rest hp => ?_, fun s i op hp ho hne => exec_not_selected hp ho hne, fun s t hp h ht hreset => ?_⟩
  · rw [step_move (.command w) rest nofun, step_move .wait rest nofun]
    exact takeInput_command_run w hp
  · have hend : ∃ k, EndedAfter k t := by
      obtain hstep | ⟨m, rest, hin, hstep⟩ := step_cases s
      · exact advance_ends hp ht (hstep ▸ h)
      · have hp' : ({ s with inputs := rest } : State).phase = .run := hp
        exact advance_ends hp' ht (takeInput_ends hp' ht (ne_reset_of_nextIsReset hreset hin) (hstep ▸ h))
    obtain ⟨k, e, n, hst, hn, hc, -⟩ := hend
    exact ⟨e.code, n, hst, hn, hc⟩

/-- In `IDLE` a move of the outside world that is no reset leaves the response, the acceptance of a command included. -/
theorem takeInput_idle_sameResponse {m : Input} {s t : State} (hp : s.phase = .idle) (hm : m ≠ .reset)
    (h : takeInput m s = .next t) : SameResponse s t := by
  cases m with
  | wait =>
    cases (advance_idle hp).symm.trans h
    exact .refl s
  | awaitIdle => cases h; exact .refl s
  | command w =>
    simp only [takeInput, offer, hp] at h
    obtain ⟨hrun, -⟩ := exec_issue hp h
    exact (exec_response (workLegal_idle hp) h).1 hrun
  | read r =>
    simp only [takeInput] at h
    split at h
    · cases h; exact .refl s
    · cases h
  | reset => exact absurd rfl hm
  | attachSource src => cases h; exact ⟨rfl, rfl, rfl⟩
  | attachSink snk => cases h; exact ⟨rfl, rfl, rfl⟩
  | presentSink => cases h; exact ⟨rfl, rfl, rfl⟩

theorem step_idle_sameResponse {s t : State} (hp : s.phase = .idle) (hreset : s.nextIsReset = false)
    (h : step s = .next t) : SameResponse s t := by
  obtain hstep | ⟨m, rest, hin, hstep⟩ := step_cases s
  · cases (advance_idle hp).symm.trans (hstep.symm.trans h)
    exact .refl s
  · exact takeInput_idle_sameResponse (s := { s with inputs := rest }) hp (ne_reset_of_nextIsReset hreset hin)
      (hstep ▸ h)

@[simp] theorem readContent_run {w : Nat} (r : ResponseReg) (x : Reg w) :
    readContent .run r x = .error (.staleResponse r) := rfl

/-- Settles O56: a read depends on the phase and on the register alone. -/
theorem responseStaysUntilTheNextCommand : Obligations.ResponseStaysUntilTheNextCommand := by
  intro s t hp h hreset
  have hsame := step_idle_sameResponse hp hreset h
  refine ⟨hsame, fun ht => ?_, fun ht => ?_⟩
  · obtain ⟨hst, hv, hn⟩ := hsame
    simp [State.readStatus, State.readValOut, State.readCount, hp, ht, hst, hv, hn]
  · simp [State.readStatus, State.readValOut, State.readCount, ht]

end Sys2Proof.Machine
end

section
/-! PROOF. Command words written out as numbers (95_test_vectors.md P1, P2). -/

namespace Sys2Proof

theorem decode_eq_of_encode_eq {w : CommandWord} {i : Instr} (h : encode i = w) : decode w = i :=
  h ▸ decode_encode i

/-- Settles O2: each number is the word its operation is encoded in. -/
theorem writtenOutWordsDecode : Obligations.WrittenOutWordsDecode :=
  ⟨decode_eq_of_encode_eq (by decide), decode_eq_of_encode_eq (by decide),
    decode_eq_of_encode_eq (by decide), decode_eq_of_encode_eq (by decide)⟩

end Sys2Proof
end
